-- ==== Sys2Proof/Word.lean ====
section
/-! DEFINITION. The word types of the machine and the sizes fixed by 00_scope.md R8. -/

namespace Sys2Proof

/-- An 8-bit value: a general register, a timer, a byte of memory, a byte immediate (R8, R20, R71). -/
abbrev Byte := BitVec 8

/-- A 16-bit value: the instruction word, I, pc, a call-stack slot (R8, R70). -/
abbrev Word := BitVec 16

/-- The 12-bit field `nnn` (R71). -/
abbrev Addr := BitVec 12

/-- The 4-bit field `n` (R71). -/
abbrev Nibble := BitVec 4

/-- The selector of a general register, V0..VF (R20). -/
abbrev Reg := Fin 16

/-- VF, the register that several instructions overwrite as a flag (R21). -/
abbrev vF : Reg := 15

/-- V0, the offset register of Bnnn (R104). -/
abbrev v0 : Reg := 0

/-- MEM_SIZE: addresses 0x000..0xFFF (R8, R50). -/
abbrev memSize : Nat := 4096

/-- FONT_SIZE: 16 glyphs of 5 bytes (R8). -/
abbrev fontSize : Nat := 80

/-- PROG_BASE: the program base and the reset pc (R8). -/
abbrev progBase : Nat := 0x200

/-- PROG_MAX: the largest program image (R8). -/
abbrev progMax : Nat := 3584

/-- The call-stack depth (R8). -/
abbrev stackDepth : Nat := 16

/-- An unsigned value written without high bits (R73). -/
def zext16 (nnn : Addr) : Word := nnn.setWidth 16

end Sys2Proof
end

