-- ==== Sys2Proof/Syntax.lean ====
section
/-! DEFINITION. The 35 instructions, one constructor per row of spec/opcode_table.json (30_encoding.md R75). -/

namespace Sys2Proof

/-- An instruction with its operand fields (R71, R72). `x` and `y` select a general register, `nnn` is
a 12-bit address, `kk` a byte and `n` a nibble. -/
inductive Instr where
  /-- 00E0, R160 -/
  | cls
  /-- 00EE, R100 -/
  | ret
  /-- 0nnn, R101 -/
  | sys (nnn : Addr)
  /-- 1nnn, R102 -/
  | jp (nnn : Addr)
  /-- 2nnn, R103 -/
  | call (nnn : Addr)
  /-- 3xkk, R105 -/
  | seVxByte (x : Reg) (kk : Byte)
  /-- 4xkk, R106 -/
  | sneVxByte (x : Reg) (kk : Byte)
  /-- 5xy0, R107 -/
  | seVxVy (x y : Reg)
  /-- 6xkk, R120 -/
  | ldVxByte (x : Reg) (kk : Byte)
  /-- 7xkk, R121 -/
  | addVxByte (x : Reg) (kk : Byte)
  /-- 8xy0, R122 -/
  | ldVxVy (x y : Reg)
  /-- 8xy1, R123 -/
  | or (x y : Reg)
  /-- 8xy2, R124 -/
  | and (x y : Reg)
  /-- 8xy3, R125 -/
  | xor (x y : Reg)
  /-- 8xy4, R126 -/
  | addVxVy (x y : Reg)
  /-- 8xy5, R127 -/
  | sub (x y : Reg)
  /-- 8xy6, R128: the field y is decoded and ignored -/
  | shr (x y : Reg)
  /-- 8xy7, R129 -/
  | subn (x y : Reg)
  /-- 8xyE, R130: the field y is decoded and ignored -/
  | shl (x y : Reg)
  /-- 9xy0, R108 -/
  | sneVxVy (x y : Reg)
  /-- Annn, R140 -/
  | ldI (nnn : Addr)
  /-- Bnnn, R104 -/
  | jpV0 (nnn : Addr)
  /-- Cxkk, R134 -/
  | rnd (x : Reg) (kk : Byte)
  /-- Dxyn, R161 -/
  | drw (x y : Reg) (n : Nibble)
  /-- Ex9E, R170 -/
  | skp (x : Reg)
  /-- ExA1, R171 -/
  | sknp (x : Reg)
  /-- Fx07, R172 -/
  | ldVxDt (x : Reg)
  /-- Fx0A, R173 -/
  | ldVxK (x : Reg)
  /-- Fx15, R174 -/
  | ldDtVx (x : Reg)
  /-- Fx18, R175 -/
  | ldStVx (x : Reg)
  /-- Fx1E, R141 -/
  | addIVx (x : Reg)
  /-- Fx29, R142 -/
  | ldFVx (x : Reg)
  /-- Fx33, R143 -/
  | ldBVx (x : Reg)
  /-- Fx55, R144 -/
  | ldMemVx (x : Reg)
  /-- Fx65, R145 -/
  | ldVxMem (x : Reg)
  deriving DecidableEq, Repr

end Sys2Proof
end

