-- ==== Sys2Proof/Decode.lean ====
section
/-! DEFINITION. Instruction encoding: the fields of a word, the decoder, the encoder and the opcode map
(30_encoding.md R70 to R76). -/

namespace Sys2Proof

/-- Why bytes give no instruction. -/
inductive DecodeError where
  /-- `Unknown(w)`: the word matches none of the 35 instructions (R74, R76). -/
  | unknown (w : Word)
  /-- Fewer than the two bytes every instruction has (R70). -/
  | truncated
  deriving DecidableEq, Repr

/-! ### The fields of a word (R71) -/

/-- op = w[15:12] -/
def fieldOp (w : Word) : Nibble := w.extractLsb' 12 4
/-- x = w[11:8], a register selector -/
def fieldX (w : Word) : Reg := (w.extractLsb' 8 4).toFin
/-- y = w[7:4], a register selector -/
def fieldY (w : Word) : Reg := (w.extractLsb' 4 4).toFin
/-- n = w[3:0] -/
def fieldN (w : Word) : Nibble := w.extractLsb' 0 4
/-- kk = w[7:0] -/
def fieldKk (w : Word) : Byte := w.extractLsb' 0 8
/-- nnn = w[11:0] -/
def fieldNnn (w : Word) : Addr := w.extractLsb' 0 12

/-! ### The decoder (R74) -/

/-- Family 0x0: 0x00E0 and 0x00EE are matched on the whole word (90_conflicts.md C3). -/
def decodeFamily0 (w : Word) : Instr :=
  if w = 0x00E0#16 then .cls
  else if w = 0x00EE#16 then .ret
  else .sys (fieldNnn w)

/-- Family 0x8: secondary dispatch on the low nibble. -/
def decodeFamily8 (w : Word) : Except DecodeError Instr :=
  let x := fieldX w
  let y := fieldY w
  match (fieldN w).toNat with
  | 0x0 => .ok (.ldVxVy x y)
  | 0x1 => .ok (.or x y)
  | 0x2 => .ok (.and x y)
  | 0x3 => .ok (.xor x y)
  | 0x4 => .ok (.addVxVy x y)
  | 0x5 => .ok (.sub x y)
  | 0x6 => .ok (.shr x y)
  | 0x7 => .ok (.subn x y)
  | 0xE => .ok (.shl x y)
  | _ => .error (.unknown w)

/-- Family 0xE: secondary dispatch on the low byte. -/
def decodeFamilyE (w : Word) : Except DecodeError Instr :=
  let x := fieldX w
  match (fieldKk w).toNat with
  | 0x9E => .ok (.skp x)
  | 0xA1 => .ok (.sknp x)
  | _ => .error (.unknown w)

/-- Family 0xF: secondary dispatch on the low byte. -/
def decodeFamilyF (w : Word) : Except DecodeError Instr :=
  let x := fieldX w
  match (fieldKk w).toNat with
  | 0x07 => .ok (.ldVxDt x)
  | 0x0A => .ok (.ldVxK x)
  | 0x15 => .ok (.ldDtVx x)
  | 0x18 => .ok (.ldStVx x)
  | 0x1E => .ok (.addIVx x)
  | 0x29 => .ok (.ldFVx x)
  | 0x33 => .ok (.ldBVx x)
  | 0x55 => .ok (.ldMemVx x)
  | 0x65 => .ok (.ldVxMem x)
  | _ => .error (.unknown w)

/-- R74: every 16-bit word is exactly one of the 35 instructions or `Unknown(w)`. -/
def decodeWord (w : Word) : Except DecodeError Instr :=
  match (fieldOp w).toNat with
  | 0x0 => .ok (decodeFamily0 w)
  | 0x1 => .ok (.jp (fieldNnn w))
  | 0x2 => .ok (.call (fieldNnn w))
  | 0x3 => .ok (.seVxByte (fieldX w) (fieldKk w))
  | 0x4 => .ok (.sneVxByte (fieldX w) (fieldKk w))
  | 0x5 => if fieldN w = 0 then .ok (.seVxVy (fieldX w) (fieldY w)) else .error (.unknown w)
  | 0x6 => .ok (.ldVxByte (fieldX w) (fieldKk w))
  | 0x7 => .ok (.addVxByte (fieldX w) (fieldKk w))
  | 0x8 => decodeFamily8 w
  | 0x9 => if fieldN w = 0 then .ok (.sneVxVy (fieldX w) (fieldY w)) else .error (.unknown w)
  | 0xA => .ok (.ldI (fieldNnn w))
  | 0xB => .ok (.jpV0 (fieldNnn w))
  | 0xC => .ok (.rnd (fieldX w) (fieldKk w))
  | 0xD => .ok (.drw (fieldX w) (fieldY w) (fieldN w))
  | 0xE => decodeFamilyE w
  | 0xF => decodeFamilyF w
  | _ => .error (.unknown w)

/-- The word of two consecutive bytes: big-endian, the byte at the lower address is bits 15..8
(R51, R54, R70). -/
def joinBytes (hi lo : Byte) : Word := hi ++ lo

/-- Bits 15..8 of a word: the byte at the lower address. -/
def highByte (w : Word) : Byte := w.extractLsb' 8 8

/-- Bits 7..0 of a word: the byte at the higher address. -/
def lowByte (w : Word) : Byte := w.extractLsb' 0 8

/-- A word as it is stored: the byte at the lower address first (R54). -/
def wordBytes (w : Word) : List Byte := [highByte w, lowByte w]

/-- The decoder on bytes: every instruction is two bytes (R70). Answers the instruction and the bytes
after it. -/
def decodeBytes : List Byte → Except DecodeError (Instr × List Byte)
  | hi :: lo :: rest =>
    match decodeWord (joinBytes hi lo) with
    | .ok i => .ok (i, rest)
    | .error e => .error e
  | _ => .error .truncated

/-- The instruction that the decoder reads from a word numbered as spec/opcode_table.json numbers it: one
16-bit word, bit 0 the least significant (R11), stored big-endian (R54). Bits above `nbits` are 0. -/
def decodeTableWord (nbits w : Nat) : Option Instr :=
  match decodeBytes (wordBytes (BitVec.ofNat 16 (w % 2 ^ nbits))) with
  | .ok (i, _) => some i
  | .error _ => none

/-! ### The encoder, from the formats of R72 and the patterns of R75 -/

/-- The four bits of a register selector. -/
def regBits (r : Reg) : Nibble := BitVec.ofFin r

/-- Format NNN: op[15:12] nnn[11:0]. -/
def encodeNnn (op : Nibble) (nnn : Addr) : Word := op ++ nnn

/-- Format XKK: op[15:12] x[11:8] kk[7:0]. Format XSS is the same with a sub-opcode for kk. -/
def encodeXkk (op : Nibble) (x : Reg) (kk : Byte) : Word := op ++ regBits x ++ kk

/-- Format XYN: op[15:12] x[11:8] y[7:4] n[3:0]. Formats XY0 and XYS are the same with a sub-opcode
for n. -/
def encodeXyn (op : Nibble) (x y : Reg) (n : Nibble) : Word := op ++ regBits x ++ regBits y ++ n

/-- The word of an instruction (R72, R75). -/
def encode : Instr → Word
  | .cls => 0x00E0#16
  | .ret => 0x00EE#16
  | .sys nnn => encodeNnn 0x0 nnn
  | .jp nnn => encodeNnn 0x1 nnn
  | .call nnn => encodeNnn 0x2 nnn
  | .seVxByte x kk => encodeXkk 0x3 x kk
  | .sneVxByte x kk => encodeXkk 0x4 x kk
  | .seVxVy x y => encodeXyn 0x5 x y 0x0
  | .ldVxByte x kk => encodeXkk 0x6 x kk
  | .addVxByte x kk => encodeXkk 0x7 x kk
  | .ldVxVy x y => encodeXyn 0x8 x y 0x0
  | .or x y => encodeXyn 0x8 x y 0x1
  | .and x y => encodeXyn 0x8 x y 0x2
  | .xor x y => encodeXyn 0x8 x y 0x3
  | .addVxVy x y => encodeXyn 0x8 x y 0x4
  | .sub x y => encodeXyn 0x8 x y 0x5
  | .shr x y => encodeXyn 0x8 x y 0x6
  | .subn x y => encodeXyn 0x8 x y 0x7
  | .shl x y => encodeXyn 0x8 x y 0xE
  | .sneVxVy x y => encodeXyn 0x9 x y 0x0
  | .ldI nnn => encodeNnn 0xA nnn
  | .jpV0 nnn => encodeNnn 0xB nnn
  | .rnd x kk => encodeXkk 0xC x kk
  | .drw x y n => encodeXyn 0xD x y n
  | .skp x => encodeXkk 0xE x 0x9E
  | .sknp x => encodeXkk 0xE x 0xA1
  | .ldVxDt x => encodeXkk 0xF x 0x07
  | .ldVxK x => encodeXkk 0xF x 0x0A
  | .ldDtVx x => encodeXkk 0xF x 0x15
  | .ldStVx x => encodeXkk 0xF x 0x18
  | .addIVx x => encodeXkk 0xF x 0x1E
  | .ldFVx x => encodeXkk 0xF x 0x29
  | .ldBVx x => encodeXkk 0xF x 0x33
  | .ldMemVx x => encodeXkk 0xF x 0x55
  | .ldVxMem x => encodeXkk 0xF x 0x65

/-! ### The opcode map (R75) -/

/-- The match of an instruction's row in R75. -/
def Instr.rowMatch : Instr → Word
  | .cls => 0x00E0 | .ret => 0x00EE | .sys _ => 0x0000 | .jp _ => 0x1000 | .call _ => 0x2000
  | .seVxByte _ _ => 0x3000 | .sneVxByte _ _ => 0x4000 | .seVxVy _ _ => 0x5000
  | .ldVxByte _ _ => 0x6000 | .addVxByte _ _ => 0x7000 | .ldVxVy _ _ => 0x8000
  | .or _ _ => 0x8001 | .and _ _ => 0x8002 | .xor _ _ => 0x8003 | .addVxVy _ _ => 0x8004
  | .sub _ _ => 0x8005 | .shr _ _ => 0x8006 | .subn _ _ => 0x8007 | .shl _ _ => 0x800E
  | .sneVxVy _ _ => 0x9000 | .ldI _ => 0xA000 | .jpV0 _ => 0xB000 | .rnd _ _ => 0xC000
  | .drw _ _ _ => 0xD000 | .skp _ => 0xE09E | .sknp _ => 0xE0A1 | .ldVxDt _ => 0xF007
  | .ldVxK _ => 0xF00A | .ldDtVx _ => 0xF015 | .ldStVx _ => 0xF018 | .addIVx _ => 0xF01E
  | .ldFVx _ => 0xF029 | .ldBVx _ => 0xF033 | .ldMemVx _ => 0xF055 | .ldVxMem _ => 0xF065

/-- The mask of an instruction's row in R75. -/
def Instr.rowMask : Instr → Word
  | .cls | .ret => 0xFFFF
  | .sys _ | .jp _ | .call _ | .ldI _ | .jpV0 _ => 0xF000
  | .seVxByte _ _ | .sneVxByte _ _ | .ldVxByte _ _ | .addVxByte _ _ | .rnd _ _ => 0xF000
  | .drw _ _ _ => 0xF000
  | .seVxVy _ _ | .sneVxVy _ _ => 0xF00F
  | .ldVxVy _ _ | .or _ _ | .and _ _ | .xor _ _ | .addVxVy _ _ => 0xF00F
  | .sub _ _ | .shr _ _ | .subn _ _ | .shl _ _ => 0xF00F
  | .skp _ | .sknp _ | .ldVxDt _ | .ldVxK _ | .ldDtVx _ | .ldStVx _ => 0xF0FF
  | .addIVx _ | .ldFVx _ | .ldBVx _ | .ldMemVx _ | .ldVxMem _ => 0xF0FF

/-- R75: "A word w selects a row when (w AND mask) = match, and, for SYS, only when w is neither 0x00E0 nor
0x00EE." -/
def Instr.rowSelects (i : Instr) (w : Word) : Bool :=
  w &&& i.rowMask == i.rowMatch &&
    match i with
    | .sys _ => w != 0x00E0#16 && w != 0x00EE#16
    | _ => true

/-- R76: the five groups of words that are no instruction. -/
def undefinedWord (w : Word) : Bool :=
  let n := (fieldN w).toNat
  let kk := (fieldKk w).toNat
  match (fieldOp w).toNat with
  | 0x5 | 0x9 => n != 0
  | 0x8 => [0x8, 0x9, 0xA, 0xB, 0xC, 0xD, 0xF].contains n
  | 0xE => ! [0x9E, 0xA1].contains kk
  | 0xF => ! [0x07, 0x0A, 0x15, 0x18, 0x1E, 0x29, 0x33, 0x55, 0x65].contains kk
  | _ => false

end Sys2Proof
end

