-- ==== Sys2Proof/Config.lean ====
section
/-! DEFINITION. What the spec leaves open: the model's parameters (00_scope.md R9) and its free values. -/

namespace Sys2Proof

/-- The parameters that the spec takes as arguments of the model (R9): they never change while the
machine runs. They stand in State (field `params`), so that a statement about every state is a
statement about every value of them. DESIGN CHOICE (log 2), safe. -/
structure Params where
  /-- FX29_SOURCE_COMPAT: how Fx29 addresses the glyph (R142, decision D7). -/
  fx29SourceCompat : Bool
  /-- FONT: the 80 glyph bytes that reset places at 0x000..0x04F (R33, decision D8). -/
  font : Vector Byte fontSize
  deriving DecidableEq, Repr

/-- `random_byte()` (R16, R134, decision D12): the spec gives no generator, seed or distribution.
`rnd k` is the k-th byte drawn. A FREE VALUE: it has no body, so nothing can be proved of its value
(log 1). -/
opaque Config.rnd : Nat → Byte

end Sys2Proof
end

