-- ==== Sys2Proof/Machine/Font.lean ====
section
/-! DEFINITION. The default values of the parameters (00_scope.md R9). -/

namespace Sys2Proof.Machine

/-- The default of FONT: the table of 10_state.md R33, one line a digit. PRESUMED (log 3): the spec marks the
bytes "from general knowledge, not in source". -/
def defaultFont : Vector Byte fontSize :=
  #v[0xF0, 0x90, 0x90, 0x90, 0xF0,
     0x20, 0x60, 0x20, 0x20, 0x70,
     0xF0, 0x10, 0xF0, 0x80, 0xF0,
     0xF0, 0x10, 0xF0, 0x10, 0xF0,
     0x90, 0x90, 0xF0, 0x10, 0x10,
     0xF0, 0x80, 0xF0, 0x10, 0xF0,
     0xF0, 0x80, 0xF0, 0x90, 0xF0,
     0xF0, 0x10, 0x20, 0x40, 0x40,
     0xF0, 0x90, 0xF0, 0x90, 0xF0,
     0xF0, 0x90, 0xF0, 0x10, 0xF0,
     0xF0, 0x90, 0xF0, 0x90, 0x90,
     0xE0, 0x90, 0xE0, 0x90, 0xE0,
     0xF0, 0x80, 0x80, 0x80, 0xF0,
     0xE0, 0x90, 0x90, 0x90, 0xE0,
     0xF0, 0x80, 0xF0, 0x80, 0xF0,
     0xF0, 0x80, 0xF0, 0x80, 0x80]

/-- The default parameters: FX29_SOURCE_COMPAT = false (decision D7), FONT = the table of R33
(decision D8). -/
def defaultParams : Params := { fx29SourceCompat := false, font := defaultFont }

/-- The byte that memory holds at an address right after reset (10_state.md R35, 20_memory.md R56): FONT at
0x000..0x04F, and 0 elsewhere. The 0 outside the font is decision D9 of the spec: DESIGN CHOICE
(log 4), unsafe. -/
def resetByte (font : Vector Byte fontSize) (a : Nat) : Byte :=
  if h : a < fontSize then font[a] else 0

end Sys2Proof.Machine
end

