-- ==== Sys2Proof/Machine/State.lean ====
section
/-! DEFINITION. The machine's state as plain data, its faults and refusals, and the state after reset
(10_state.md R20 to R35; 60_exceptions.md R190). -/

namespace Sys2Proof.Machine

/-- The causes for which a step ends with no state change (60_exceptions.md R190, R192). Each is safe: the
spec itself defines the step to fail here. -/
inductive Fault where
  /-- STACK_OVERFLOW, code 2: raised by 2nnn with sp = 16 (R103); info is sp. Safe. -/
  | stackOverflow (sp : Nat)
  /-- STACK_UNDERFLOW, code 3: raised by 00EE with sp = 0 (R100); info is sp. Safe. -/
  | stackUnderflow (sp : Nat)
  /-- FETCH_RANGE, code 4: raised by the fetch of any step with pc + 1 > 0xFFF (R51); info is pc. Safe. -/
  | fetchRange (pc : Nat)
  /-- DATA_RANGE, code 5: raised by Dxyn, Fx33, Fx55 and Fx65 with an address above 0xFFF (R52), and by
  Fx29 in compat mode in principle (R142); info is the first out-of-range address. Safe. -/
  | dataRange (addr : Nat)
  /-- KEY_RANGE, code 6: raised by Ex9E and ExA1 with V[x] > 0xF (R170, R171); info is V[x]. Safe. -/
  | keyRange (value : Nat)
  deriving DecidableEq, Repr

/-- Why the model gives an instruction no meaning. -/
inductive Refusal where
  /-- Raised by an arm of exec whose instruction has no meaning yet; no arm does. Safe. -/
  | notModelled (mnemonic : String)
  deriving DecidableEq, Repr

/-- The outcome of one step. -/
abbrev Result (σ : Type) := Host.Outcome σ Fault Refusal

/-- Memory (R28): the bytes that differ from their reset contents, by strictly rising address. -/
abbrev Memory := List Host.Cell

/-- The framebuffer (R29): 32 rows, row y from the top; bit x of a row is the cell of column x. -/
abbrev Framebuffer := Vector (BitVec 64) 32

/-- The machine state (10_state.md, summary table). -/
structure State where
  /-- V[0..15] (R20) -/
  v : Vector Byte 16
  /-- I (R22) -/
  i : Word
  /-- pc (R23) -/
  pc : Word
  /-- sp, the number of call-stack slots in use, 0..16 (R25) -/
  sp : Fin 17
  /-- S[0..15] (R26) -/
  stack : Vector Word 16
  /-- DT (R27) -/
  dt : Byte
  /-- ST (R27) -/
  st : Byte
  /-- M (R28) -/
  mem : Memory
  /-- FB (R29) -/
  fb : Framebuffer
  /-- K, true when the key is held (R30) -/
  keys : Vector Bool 16
  /-- The parameters the spec leaves open (R9): no transition changes them (log 2). -/
  params : Params
  /-- The MODEL's own field: how many random bytes have been drawn (log 1). -/
  draws : Nat
  deriving DecidableEq, Repr

/-- The state after the reset transaction, for given parameters (10_state.md R35,
70_reset_and_hazards.md R220). -/
def State.resetWith (p : Params) : State where
  v := Vector.replicate 16 0
  i := 0
  pc := 0x200
  sp := 0
  stack := Vector.replicate 16 0
  dt := 0
  st := 0
  mem := []
  fb := Vector.replicate 32 0
  keys := Vector.replicate 16 false
  params := p
  draws := 0

/-- The machine right after reset, with the default parameters (R9, R35). -/
def State.reset : State := State.resetWith defaultParams

end Sys2Proof.Machine
end

