-- ==== Sys2Proof/Machine/Ops.lean ====
section
/-! DEFINITION. The named operations over registers, memory, the call stack, the framebuffer and the pc, and
the one operation that ends a step with a fault. -/

namespace Sys2Proof.Machine

/-! ### Registers (10_state.md R20 to R27) -/

/-- V[r] -/
def State.reg (s : State) (r : Reg) : Byte := s.v[r.val]

/-- V[r] <- b. No register is hardwired (R20). -/
def State.setReg (s : State) (r : Reg) (b : Byte) : State := { s with v := s.v.set r.val b r.isLt }

/-- I <- w -/
def State.setI (s : State) (w : Word) : State := { s with i := w }

/-- pc <- w -/
def State.setPc (s : State) (w : Word) : State := { s with pc := w }

/-- pc <- (pc + k) mod 65536 (R23): the default postlude with k = 2, a taken skip with k = 4. -/
def State.advance (s : State) (k : Word) : State := s.setPc (s.pc + k)

/-- R81: a skip advances by 4 when its condition holds and by 2 otherwise. -/
def State.skipIf (c : Bool) (s : State) : State := s.advance (if c then 4 else 2)

/-- DT <- b -/
def State.setDt (s : State) (b : Byte) : State := { s with dt := b }

/-- ST <- b -/
def State.setSt (s : State) (b : Byte) : State := { s with st := b }

/-! ### Memory (20_memory.md R65) -/

/-- What memory holds at an address: a listed byte, else the reset contents. -/
def Memory.read (font : Vector Byte fontSize) : Memory → Nat → Byte
  | [], a => resetByte font a
  | (b, x) :: rest, a => if a = b then x else Memory.read font rest a

/-- The list with a byte put at an address, in canonical form: strictly rising addresses, and no entry equal to
what an unlisted address reads as. -/
def Memory.write (font : Vector Byte fontSize) : Memory → Nat → Byte → Memory
  | [], a, x => if x = resetByte font a then [] else [(a, x)]
  | (b, y) :: rest, a, x =>
    if a < b then
      if x = resetByte font a then (b, y) :: rest else (a, x) :: (b, y) :: rest
    else if a = b then
      if x = resetByte font a then rest else (a, x) :: rest
    else (b, y) :: Memory.write font rest a x

/-- The canonical form of memory: addresses strictly rising and below 0x1000, no entry equal to the reset
contents of its address. -/
abbrev Memory.wf (font : Vector Byte fontSize) (m : Memory) : Prop :=
  m.Pairwise (fun p q => p.1 < q.1) ∧ ∀ p ∈ m, p.1 < memSize ∧ p.2 ≠ resetByte font p.1

/-- MemRead(a, 1) (R14, R65). It is used only for a ≤ 0xFFF: R51 and R52 stand before it (log 21). -/
def State.readByte (s : State) (a : Nat) : Byte := Memory.read s.params.font s.mem a

/-- MemWrite(a, 1, b) (R14, R65). It is used only for a ≤ 0xFFF (log 21). -/
def State.writeByte (s : State) (a : Nat) (b : Byte) : State :=
  { s with mem := Memory.write s.params.font s.mem a b }

/-- The bytes at a, a + 1, ..., in ascending order. -/
def State.readBytes (s : State) (a : Nat) : Nat → List Byte
  | 0 => []
  | n + 1 => s.readByte a :: s.readBytes (a + 1) n

/-- MemWrite of a list of bytes at a, a + 1, ..., in ascending order. -/
def State.storeBytes (s : State) (a : Nat) : List Byte → State
  | [] => s
  | b :: bs => (s.writeByte a b).storeBytes (a + 1) bs

/-- V0, V1, ..., V[x]: the registers that Fx55 and Fx65 move, in ascending order (R54). -/
def regsUpTo (x : Reg) : List Reg := (List.finRange 16).take (x.val + 1)

/-- The contents of V0, ..., V[x]. -/
def State.regBytes (s : State) (x : Reg) : List Byte := (regsUpTo x).map s.reg

/-- V[r] <- M[a + r] for every r up to x, in ascending order (R145). -/
def State.loadRegs (s : State) (a : Nat) (x : Reg) : State :=
  (regsUpTo x).foldl (fun t r => t.setReg r (s.readByte (a + r.val))) s

/-! ### The call stack (10_state.md R25, R26) -/

/-- S[j] -/
def State.slot (s : State) (j : Fin 16) : Word := s.stack[j.val]

/-- S[j] <- w -/
def State.setSlot (s : State) (j : Fin 16) (w : Word) : State :=
  { s with stack := s.stack.set j.val w j.isLt }

/-- sp <- k -/
def State.setSp (s : State) (k : Fin 17) : State := { s with sp := k }

/-! ### The framebuffer (10_state.md R29) -/

/-- The cell at column x of row y. -/
def Framebuffer.cell (fb : Framebuffer) (y : Fin 32) (x : Fin 64) : Bool := fb[y.val].getLsbD x.val

/-- FB[c], where c = y * 64 + x (R29): row-major. -/
def Framebuffer.cellAt (fb : Framebuffer) (c : Fin 2048) : Bool :=
  fb.cell ⟨c.val / 64, by omega⟩ ⟨c.val % 64, by omega⟩

/-- FB[c] <- FB[c] XOR 1 for the cell at column x of row y. -/
def Framebuffer.toggle (fb : Framebuffer) (y : Fin 32) (x : Fin 64) : Framebuffer :=
  fb.set y.val (fb[y.val] ^^^ BitVec.twoPow 64 x.val) y.isLt

/-- All cells off. -/
def Framebuffer.clear : Framebuffer := Vector.replicate 32 0

/-- FB <- fb -/
def State.setFb (s : State) (fb : Framebuffer) : State := { s with fb := fb }

/-! ### The random input (00_scope.md R16) -/

/-- The next byte of `random_byte()`, a free value, and the state after it is drawn (log 1). -/
def State.drawRnd (s : State) : Byte × State := (Config.rnd s.draws, { s with draws := s.draws + 1 })

/-! ### Ending a step -/

/-- The step fails: it answers the cause, and no state changes (00_scope.md R15, 60_exceptions.md R192). There
is no trap mechanism, so nothing is saved and no handler is entered (R196). -/
def raise (f : Fault) : Result State := .fault f

/-- The default postlude: the instruction is complete and pc <- pc + 2 (R81). -/
def State.done (s : State) : Result State := .next (s.advance 2)

/-! ### Fetch and undefined words -/

/-- R51: the instruction word at pc, big-endian; both bytes must lie in memory. -/
def fetchWord (s : State) : Except Fault Word :=
  if s.pc.toNat + 1 ≤ 0xFFF then
    .ok (joinBytes (s.readByte s.pc.toNat) (s.readByte (s.pc.toNat + 1)))
  else .error (.fetchRange s.pc.toNat)

/-- R80: an undefined word only advances pc by 2; it "is reported (diagnostic) and treated as a no-op advance
of 2 — not fatal" (R76). The report is `stepReport` of Step.lean (log 18). -/
def execUnknown (s : State) : Result State := .next (s.advance 2)

/-- A word placed where the next step fetches it: at pc, or at 0x200 when no word can be fetched at pc
(log 15). -/
def State.placeWord (s : State) (w : Word) : State :=
  if s.pc.toNat + 1 ≤ 0xFFF then s.storeBytes s.pc.toNat (wordBytes w)
  else (s.setPc 0x200).storeBytes progBase (wordBytes w)

end Sys2Proof.Machine
end

