-- ==== Sys2Proof/Machine/Operands.lean ====
section
/-! DEFINITION. The operand forms: data addresses and their range check, the glyph address, the key selected by a
register, the cell a sprite bit lands on, and the decimal digits of a byte. -/

namespace Sys2Proof.Machine

/-- The first address above 0xFFF among base, base + 1, ..., base + len - 1, in ascending order
(20_memory.md R52; decision D18). Addresses are exact natural numbers: nothing wraps (decision D2). -/
def firstOutOfRange (base : Nat) : Nat → Option Nat
  | 0 => none
  | len + 1 => if base ≤ 0xFFF then firstOutOfRange (base + 1) len else some base

/-- R52: `require a <= 0xFFF else raise Fault(DATA_RANGE, a)` for every address of an instruction, before its
first write; `k` is the rest of the instruction. -/
def withDataRange (base len : Nat) (k : Result State) : Result State :=
  match firstOutOfRange base len with
  | some a => raise (.dataRange a)
  | none => k

/-- The base of every data access but Fx29's: the exact value of I (42_index_memory.md R146). -/
def State.dataBase (s : State) : Nat := s.i.toNat

/-- 5 * V[x], exact, 0..1275 (R142): a glyph has 5 bytes, the font starts at 0x000. -/
def glyphAddr (digit : Byte) : Nat := 5 * digit.toNat

/-- `require V[x] <= 0xF else raise Fault(KEY_RANGE, V[x])` (R170, R171), then the level of that key. -/
def withKey (s : State) (value : Byte) (k : Bool → Result State) : Result State :=
  if h : value.toNat ≤ 0xF then k (s.keys[value.toNat]'(by omega)) else raise (.keyRange value.toNat)

/-- The held key of lowest index, if any is held (R173). -/
def State.firstHeldKey (s : State) : Option (Fin 16) :=
  (List.finRange 16).find? (fun k => s.keys[k.val])

/-- v div 100, (v div 10) mod 10, v mod 10: hundreds, tens, ones (R143). -/
def bcdDigits (v : Byte) : List Byte :=
  [BitVec.ofNat 8 (v.toNat / 100), BitVec.ofNat 8 (v.toNat / 10 % 10), BitVec.ofNat 8 (v.toNat % 10)]

/-- The row a sprite row lands on: (vy + row) mod 32 (R161). -/
def spriteY (vy : Byte) (row : Nat) : Fin 32 := ⟨(vy.toNat + row) % 32, Nat.mod_lt _ (by decide)⟩

/-- The column a sprite column lands on: (vx + col) mod 64 (R161, 90_conflicts.md C5). -/
def spriteX (vx : Byte) (col : Nat) : Fin 64 := ⟨(vx.toNat + col) % 64, Nat.mod_lt _ (by decide)⟩

/-- The bit of a sprite byte at a column, most significant first: column 0 is bit 7 (R161). -/
def spriteBit (b : Byte) (col : Nat) : Bool := b.getLsbD (7 - col)

end Sys2Proof.Machine
end

