-- ==== Sys2Proof/Machine/Flags.lean ====
section
/-! DEFINITION. The values that instructions write to VF as a flag (10_state.md R21, 41_alu.md R131). -/

namespace Sys2Proof.Machine

/-- A flag as VF holds it: 1 or 0. -/
def flagByte (c : Bool) : Byte := if c then 1 else 0

/-- 8xy4: 1 exactly when the exact sum exceeds 255 (R126, R131). -/
def carryFlag (a b : Byte) : Byte := flagByte (a.toNat + b.toNat > 255)

/-- 8xy5 and 8xy7: 1 exactly when the minuend is strictly greater than the subtrahend (R127, R129, R131). -/
def noBorrowFlag (minuend subtrahend : Byte) : Byte := flagByte (minuend.toNat > subtrahend.toNat)

/-- 8xy6: the bit shifted out, V[x] AND 1 (R128). -/
def shiftedOutRight (a : Byte) : Byte := a &&& 1

/-- 8xyE: the bit shifted out, V[x] >> 7 (R130). -/
def shiftedOutLeft (a : Byte) : Byte := a >>> 7

/-- VF <- f -/
def State.setFlag (s : State) (f : Byte) : State := s.setReg vF f

end Sys2Proof.Machine
end

