-- ==== Sys2Proof/Machine/Alu.lean ====
section
/-! DEFINITION. Register and ALU instructions (41_alu.md R120 to R134). The assignments of a row run in the order
written, each reading the registers as the one before left them (R132; decision D10, log 11). -/

namespace Sys2Proof.Machine

/-- 6xkk (R120) -/
def execLdVxByte (x : Reg) (kk : Byte) (s : State) : Result State := (s.setReg x kk).done

/-- 7xkk (R121): wraps modulo 256, no flag. -/
def execAddVxByte (x : Reg) (kk : Byte) (s : State) : Result State := (s.setReg x (s.reg x + kk)).done

/-- 8xy0 (R122) -/
def execLdVxVy (x y : Reg) (s : State) : Result State := (s.setReg x (s.reg y)).done

/-- 8xy1 (R123): no flag. -/
def execOr (x y : Reg) (s : State) : Result State := (s.setReg x (s.reg x ||| s.reg y)).done

/-- 8xy2 (R124): no flag. -/
def execAnd (x y : Reg) (s : State) : Result State := (s.setReg x (s.reg x &&& s.reg y)).done

/-- 8xy3 (R125): no flag. -/
def execXor (x y : Reg) (s : State) : Result State := (s.setReg x (s.reg x ^^^ s.reg y)).done

/-- 8xy4 (R126): sum and carry of the pre-instruction values; VF is written last. -/
def execAddVxVy (x y : Reg) (s : State) : Result State :=
  let a := s.reg x
  let b := s.reg y
  ((s.setReg x (BitVec.ofNat 8 (a.toNat + b.toNat))).setFlag (carryFlag a b)).done

/-- 8xy5 (R127): VF is written first, the difference is of the registers after that. -/
def execSub (x y : Reg) (s : State) : Result State :=
  let t := s.setFlag (noBorrowFlag (s.reg x) (s.reg y))
  (t.setReg x (t.reg x - t.reg y)).done

/-- 8xy6 (R128): VF is written first; V[x] is shifted, y is ignored. -/
def execShr (x _y : Reg) (s : State) : Result State :=
  let t := s.setFlag (shiftedOutRight (s.reg x))
  (t.setReg x (t.reg x >>> 1)).done

/-- 8xy7 (R129): VF is written first, the difference is of the registers after that. -/
def execSubn (x y : Reg) (s : State) : Result State :=
  let t := s.setFlag (noBorrowFlag (s.reg y) (s.reg x))
  (t.setReg x (t.reg y - t.reg x)).done

/-- 8xyE (R130): VF is written first; V[x] is shifted, y is ignored. -/
def execShl (x _y : Reg) (s : State) : Result State :=
  let t := s.setFlag (shiftedOutLeft (s.reg x))
  (t.setReg x (t.reg x <<< 1)).done

/-- Cxkk with the byte that `random_byte()` gives (R134). -/
def execRndWith (r : Byte) (x : Reg) (kk : Byte) (s : State) : Result State := (s.setReg x (r &&& kk)).done

/-- Cxkk (R134): the random byte is a free value (decision D12, log 1). -/
def execRnd (x : Reg) (kk : Byte) (s : State) : Result State :=
  execRndWith s.drawRnd.1 x kk s.drawRnd.2

end Sys2Proof.Machine
end

