-- ==== Sys2Proof/Machine/ControlFlow.lean ====
section
/-! DEFINITION. Control transfer and skips (40_control_flow.md R100 to R108). -/

namespace Sys2Proof.Machine

/-- 00EE (R100): pop the return address. The slot is not cleared. -/
def execRet (s : State) : Result State :=
  if h : 0 < s.sp.val then
    let j : Fin 16 := ⟨s.sp.val - 1, by omega⟩
    .next ((s.setSp ⟨s.sp.val - 1, by omega⟩).setPc (s.slot j))
  else raise (.stackUnderflow s.sp.val)

/-- 0nnn (R101): an unconditional jump. -/
def execSys (nnn : Addr) (s : State) : Result State := .next (s.setPc (zext16 nnn))

/-- 1nnn (R102) -/
def execJp (nnn : Addr) (s : State) : Result State := .next (s.setPc (zext16 nnn))

/-- 2nnn (R103): push pc + 2 and jump. -/
def execCall (nnn : Addr) (s : State) : Result State :=
  if h : s.sp.val < 16 then
    .next (((s.setSlot ⟨s.sp.val, h⟩ (s.pc + 2)).setSp ⟨s.sp.val + 1, by omega⟩).setPc (zext16 nnn))
  else raise (.stackOverflow s.sp.val)

/-- Bnnn (R104): pc <- (V0 + nnn) mod 65536; V0 whatever the digit x is. -/
def execJpV0 (nnn : Addr) (s : State) : Result State :=
  .next (s.setPc (BitVec.ofNat 16 ((s.reg v0).toNat + nnn.toNat)))

/-- 3xkk (R105) -/
def execSeVxByte (x : Reg) (kk : Byte) (s : State) : Result State := .next (s.skipIf (s.reg x == kk))

/-- 4xkk (R106) -/
def execSneVxByte (x : Reg) (kk : Byte) (s : State) : Result State := .next (s.skipIf (s.reg x != kk))

/-- 5xy0 (R107) -/
def execSeVxVy (x y : Reg) (s : State) : Result State := .next (s.skipIf (s.reg x == s.reg y))

/-- 9xy0 (R108) -/
def execSneVxVy (x y : Reg) (s : State) : Result State := .next (s.skipIf (s.reg x != s.reg y))

end Sys2Proof.Machine
end

