-- ==== Sys2Proof/Machine/Display.lean ====
section
/-! DEFINITION. Display instructions and the collision detector (43_display.md R160 to R164). -/

namespace Sys2Proof.Machine

/-- One sprite bit at one cell (R161): a 1 bit toggles the cell, and is a collision if the cell was on. The
second component is the collision seen so far. -/
def drawBit (p : Framebuffer × Bool) (y : Fin 32) (x : Fin 64) (bit : Bool) : Framebuffer × Bool :=
  if bit then (p.1.toggle y x, p.2 || p.1.cell y x) else p

/-- Columns 0 to k - 1 of one sprite row, most significant bit first. -/
def drawCols (vx : Byte) (y : Fin 32) (b : Byte) (p : Framebuffer × Bool) : Nat → Framebuffer × Bool
  | 0 => p
  | k + 1 => drawBit (drawCols vx y b p k) y (spriteX vx k) (spriteBit b k)

/-- Sprite rows from `row` on, one byte a row, each of 8 columns. -/
def drawRows (vx vy : Byte) (row : Nat) : List Byte → Framebuffer × Bool → Framebuffer × Bool
  | [], p => p
  | b :: bs, p => drawRows vx vy (row + 1) bs (drawCols vx (spriteY vy row) b p 8)

/-- 00E0 (R160) -/
def execCls (s : State) : Result State := (s.setFb Framebuffer.clear).done

/-- Dxyn (R161): the operands are read before VF is cleared (decision D11, log 12); VF ends 1 on a collision,
else 0. -/
def execDrw (x y : Reg) (n : Nibble) (s : State) : Result State :=
  let sprite := s.readBytes s.dataBase n.toNat
  let drawn := drawRows (s.reg x) (s.reg y) 0 sprite (s.fb, false)
  withDataRange s.dataBase n.toNat ((s.setFb drawn.1).setFlag (flagByte drawn.2)).done

end Sys2Proof.Machine
end

