-- ==== Sys2Proof/Machine/IndexMemory.lean ====
section
/-! DEFINITION. Index register and memory instructions (42_index_memory.md R140 to R146). No access changes I
(R146). -/

namespace Sys2Proof.Machine

/-- Annn (R140) -/
def execLdI (nnn : Addr) (s : State) : Result State := (s.setI (zext16 nnn)).done

/-- Fx1E (R141): 16 bits, no flag, no range check. -/
def execAddIVx (x : Reg) (s : State) : Result State :=
  (s.setI (BitVec.ofNat 16 (s.i.toNat + (s.reg x).toNat))).done

/-- Fx29 (R142; decision D7): the address of the glyph, or in compat mode the byte found there. -/
def execLdFVx (x : Reg) (s : State) : Result State :=
  let a := glyphAddr (s.reg x)
  if s.params.fx29SourceCompat then
    withDataRange a 1 (s.setI ((s.readByte a).setWidth 16)).done
  else (s.setI (BitVec.ofNat 16 a)).done

/-- Fx33 (R143): the three decimal digits, the most significant at the lowest address. -/
def execLdBVx (x : Reg) (s : State) : Result State :=
  withDataRange s.dataBase 3 (s.storeBytes s.dataBase (bcdDigits (s.reg x))).done

/-- Fx55 (R144) -/
def execLdMemVx (x : Reg) (s : State) : Result State :=
  withDataRange s.dataBase (x.val + 1) (s.storeBytes s.dataBase (s.regBytes x)).done

/-- Fx65 (R145) -/
def execLdVxMem (x : Reg) (s : State) : Result State :=
  withDataRange s.dataBase (x.val + 1) (s.loadRegs s.dataBase x).done

end Sys2Proof.Machine
end

