-- ==== Sys2Proof/Machine/KeysTimers.lean ====
section
/-! DEFINITION. Key and timer instructions (44_keys_timers.md R170 to R175). -/

namespace Sys2Proof.Machine

/-- Ex9E (R170): skip if the key V[x] is held. -/
def execSkp (x : Reg) (s : State) : Result State :=
  withKey s (s.reg x) (fun held => .next (s.skipIf held))

/-- ExA1 (R171): skip if the key V[x] is not held. -/
def execSknp (x : Reg) (s : State) : Result State :=
  withKey s (s.reg x) (fun held => .next (s.skipIf (!held)))

/-- Fx07 (R172) -/
def execLdVxDt (x : Reg) (s : State) : Result State := (s.setReg x s.dt).done

/-- Fx0A (R173): the lowest held key, or no change at all when none is held. -/
def execLdVxK (x : Reg) (s : State) : Result State :=
  match s.firstHeldKey with
  | some k => (s.setReg x (BitVec.ofNat 8 k.val)).done
  | none => .next s

/-- Fx15 (R174) -/
def execLdDtVx (x : Reg) (s : State) : Result State := (s.setDt (s.reg x)).done

/-- Fx18 (R175) -/
def execLdStVx (x : Reg) (s : State) : Result State := (s.setSt (s.reg x)).done

end Sys2Proof.Machine
end

