-- ==== Sys2Proof/Machine/Step.lean ====
section
/-! DEFINITION. The step cycle (30_encoding.md R80) and its report to the host (60_exceptions.md R190). -/

namespace Sys2Proof.Machine

/-- One step (R80): fetch, decode and execute exactly one instruction. `Ok` and `Diag(w)` both answer the
next state (R18); `stepReport` says which of the two it was. -/
def step (s : State) : Host.Outcome State Fault Refusal :=
  match fetchWord s with
  | .error f => raise f
  | .ok w =>
    match decodeWord w with
    | .error _ => execUnknown s
    | .ok i => exec i s

/-- What the host is told of a step (R18, R190). -/
inductive Report where
  /-- code 0: the instruction executed -/
  | ok
  /-- UNKNOWN_OPCODE, code 1: the word matched no instruction (R198) -/
  | diag (w : Word)
  /-- codes 2 to 6 -/
  | fault (f : Fault)
  /-- the model gives the instruction no meaning: never (see `Refusal`) -/
  | refused (r : Refusal)
  deriving DecidableEq, Repr

/-- The report of the step from a state (R18, R80). -/
def stepReport (s : State) : Report :=
  match fetchWord s with
  | .error f => .fault f
  | .ok w =>
    match decodeWord w with
    | .error _ => .diag w
    | .ok i =>
      match exec i s with
      | .next _ => .ok
      | .fault f => .fault f
      | .refused r => .refused r

/-- A state with an instruction of spec/opcode_table.json placed where `step` fetches next (log 15). -/
def State.withFetchWord (s : State) (nbits w : Nat) : State :=
  s.placeWord (BitVec.ofNat 16 (w % 2 ^ nbits))

end Sys2Proof.Machine
end

