-- ==== Sys2Proof/Machine/HostPort.lean ====
section
/-! DEFINITION. What the host can do besides a step: tick, set_keys, load, reset and the two outputs
(60_exceptions.md R205 to R211, 20_memory.md R58, 70_reset_and_hazards.md R220). -/

namespace Sys2Proof.Machine

/-- A timer counts down by 1 and stays at 0 (R205, R206). -/
def countDown (t : Byte) : Byte := if 0 < t.toNat then t - 1 else t

/-- tick() (R205): both timers, independently. -/
def State.tick (s : State) : State := (s.setDt (countDown s.dt)).setSt (countDown s.st)

/-- set_keys(k) (R208): all 16 flags at once. -/
def State.setKeys (s : State) (k : Vector Bool 16) : State := { s with keys := k }

/-- load(b, L) (R58): whether the image is accepted, and the state after. A longer image leaves memory
unchanged. -/
def loadImage (image : List Byte) (s : State) : Bool × State :=
  if image.length > progMax then (false, s) else (true, s.storeBytes progBase image)

/-- The reset transaction (R220). The parameters are not state of the core, and the count of random bytes is the
model's own: neither is reset (log 16). -/
def State.hostReset (s : State) : State := { State.resetWith s.params with draws := s.draws }

/-- read_sound (R209): ST ≠ 0. -/
def State.soundActive (s : State) : Bool := s.st != 0

end Sys2Proof.Machine
end

