-- ==== Sys2Proof/Machine/Transactions.lean ====
section
/-! DEFINITION. The block's complete interface: the host's transactions, one at a time, in an order it chooses
(60_exceptions.md R211, 20_memory.md R59). -/

namespace Sys2Proof.Machine

/-- The transactions of R211. The random input of a step is drawn in the model (log 1). -/
inductive Transaction where
  | reset
  | load (image : List Byte)
  | setKeys (k : Vector Bool 16)
  | step
  | tick
  | readFb
  | readSound
  deriving DecidableEq, Repr

/-- The results of R211. -/
inductive Answer where
  | none
  | loaded
  | loadRejected
  | stepped (r : Report)
  | frame (fb : Framebuffer)
  | sound (active : Bool)
  deriving DecidableEq, Repr

/-- The state after the step transaction: a faulting step changes no state, and the core does not halt
(R192, R193). -/
def State.afterStep (s : State) : State :=
  match step s with
  | .next t => t
  | .fault _ => s
  | .refused _ => s

/-- The effect and the result of one transaction (R211). -/
def transact (t : Transaction) (s : State) : State × Answer :=
  match t with
  | .reset => (s.hostReset, .none)
  | .load image => ((loadImage image s).2, if (loadImage image s).1 then .loaded else .loadRejected)
  | .setKeys k => (s.setKeys k, .none)
  | .step => (s.afterStep, .stepped (stepReport s))
  | .tick => (s.tick, .none)
  | .readFb => (s, .frame s.fb)
  | .readSound => (s, .sound s.soundActive)

/-- The state after a list of transactions, in the order the host chose (R59). -/
def transactAll : List Transaction → State → State
  | [], s => s
  | t :: ts, s => transactAll ts (transact t s).1

/-- The cause code of a fault (R190; the numbers are decision D4). -/
def Fault.code : Fault → Nat
  | .stackOverflow _ => 2
  | .stackUnderflow _ => 3
  | .fetchRange _ => 4
  | .dataRange _ => 5
  | .keyRange _ => 6

/-- The info recorded with a fault (R190). -/
def Fault.info : Fault → Nat
  | .stackOverflow k | .stackUnderflow k | .fetchRange k | .dataRange k | .keyRange k => k

/-- The cause code of a step's report (R190). -/
def Report.code : Report → Option Nat
  | .ok => some 0
  | .diag _ => some 1
  | .fault f => some f.code
  | .refused _ => none

end Sys2Proof.Machine
end

