-- ==== Sys2Proof/Safety.lean ====
section
/-! DEFINITION. The terms in which claims are made: the pieces of the state and what a transition leaves unchanged,
the invariant, the cells a sprite covers, and what a safe step is. -/

namespace Sys2Proof.Machine

/-! ### Frames -/

/-- A piece of the machine's state (10_state.md, summary table), or of the model's own fields. -/
inductive Piece where
  | reg (r : Reg)
  | index
  | pc
  | sp
  | slot (j : Fin 16)
  | dt
  | st
  /-- the byte of memory at an address -/
  | byte (a : Nat)
  /-- the framebuffer cell at column x of row y -/
  | cell (y : Fin 32) (x : Fin 64)
  | key (k : Fin 16)
  /-- the parameter FX29_SOURCE_COMPAT -/
  | compat
  /-- one byte of the parameter FONT -/
  | font (j : Fin 80)
  /-- the model's count of random bytes drawn -/
  | draws
  deriving DecidableEq, Repr

/-- What a piece of the state holds, as a number. -/
def Piece.value (p : Piece) (s : State) : Nat :=
  match p with
  | .reg r => (s.reg r).toNat
  | .index => s.i.toNat
  | .pc => s.pc.toNat
  | .sp => s.sp.val
  | .slot j => (s.slot j).toNat
  | .dt => s.dt.toNat
  | .st => s.st.toNat
  | .byte a => (s.readByte a).toNat
  | .cell y x => (s.fb.cell y x).toNat
  | .key k => (s.keys[k.val]).toNat
  | .compat => s.params.fx29SourceCompat.toNat
  | .font j => (s.params.font[j.val]).toNat
  | .draws => s.draws

/-- Every piece of the state that is not among `changed` holds in `t` what it holds in `s`. -/
def SameExcept (changed : Piece → Prop) (s t : State) : Prop :=
  ∀ p : Piece, ¬ changed p → p.value t = p.value s

/-! ### The invariant -/

/-- What every transaction keeps: memory in canonical form; the pc at most 0x10FE, so that a pc update never wraps
(R23, R104); every return address on the call stack at most 0x1000 (R100). sp is in 0..16 by its type
(R25). -/
structure State.Inv (s : State) : Prop where
  memCanonical : Memory.wf s.params.font s.mem
  pcBound : s.pc.toNat ≤ 0x10FE
  slotBound : ∀ j : Fin 16, (s.slot j).toNat ≤ 0x1000

/-! ### Sprites -/

/-- A sprite bit 1 lands on the cell at column x of row y, for a sprite of n rows at address `base` drawn at
(vx, vy): s(c) = 1 in the words of 43_display.md R163. -/
def SpriteCovers (s : State) (vx vy base n : Nat) (y : Fin 32) (x : Fin 64) : Prop :=
  ∃ row col : Nat, row < n ∧ col < 8 ∧ (vy + row) % 32 = y.val ∧ (vx + col) % 64 = x.val ∧
    (s.readByte (base + row)).getLsbD (7 - col) = true

/-! ### Encodings -/

/-- The word of an instruction, as a number, is w, and the decoder reads that word as the instruction. -/
def EncodedAs (i : Instr) (w : Nat) : Prop := (encode i).toNat = w ∧ decodeWord (encode i) = .ok i

/-! ### Outcomes -/

/-- The step from s completes: it does not fault. -/
def StepCompletes (s : State) : Prop := ∃ t, step s = .next t

/-- An outcome with a function applied to its next state. -/
def mapNext (f : State → State) : Result State → Result State
  | .next s => .next (f s)
  | .fault c => .fault c
  | .refused r => .refused r

/-- The classes of pc update (30_encoding.md R81). -/
inductive PcClass where
  | postlude
  | skip
  | target
  | hold
  deriving DecidableEq, Repr

/-- The class of each instruction (the table of R81). -/
def pcClass : Instr → PcClass
  | .sys _ | .jp _ | .call _ | .jpV0 _ | .ret => .target
  | .seVxByte _ _ | .sneVxByte _ _ | .seVxVy _ _ | .sneVxVy _ _ | .skp _ | .sknp _ => .skip
  | .ldVxK _ => .hold
  | .cls | .ldVxByte _ _ | .addVxByte _ _ | .ldVxVy _ _ | .or _ _ | .and _ _ | .xor _ _ => .postlude
  | .addVxVy _ _ | .sub _ _ | .shr _ _ | .subn _ _ | .shl _ _ | .rnd _ _ | .ldI _ => .postlude
  | .drw _ _ _ | .ldVxDt _ | .ldDtVx _ | .ldStVx _ | .addIVx _ | .ldFVx _ => .postlude
  | .ldBVx _ | .ldMemVx _ | .ldVxMem _ => .postlude

/-- The condition under which a skip advances pc by 4 (40_control_flow.md R105 to R108, 44_keys_timers.md R170 and
R171). -/
def SkipHolds (i : Instr) (s : State) : Prop :=
  match i with
  | .seVxByte x kk => s.reg x = kk
  | .sneVxByte x kk => s.reg x ≠ kk
  | .seVxVy x y => s.reg x = s.reg y
  | .sneVxVy x y => s.reg x ≠ s.reg y
  | .skp x => ∃ k : Fin 16, (s.reg x).toNat = k.val ∧ s.keys[k.val] = true
  | .sknp x => ∃ k : Fin 16, (s.reg x).toNat = k.val ∧ s.keys[k.val] = false
  | _ => False

/-- The address that a jump, a call or a return sets pc to (40_control_flow.md R100 to R104): nnn, V0 + nnn, or the
slot that the return pops. -/
def Targets (i : Instr) (s : State) (a : Nat) : Prop :=
  match i with
  | .sys nnn | .jp nnn | .call nnn => a = nnn.toNat
  | .jpV0 nnn => a = ((s.reg v0).toNat + nnn.toNat) % 65536
  | .ret => ∃ j : Fin 16, s.sp.val = j.val + 1 ∧ a = (s.slot j).toNat
  | _ => False

/-- The faults an instruction can raise (60_exceptions.md R195). -/
def mayRaise : Instr → Fault → Bool
  | .call _, .stackOverflow _ => true
  | .ret, .stackUnderflow _ => true
  | .skp _, .keyRange _ | .sknp _, .keyRange _ => true
  | .drw _ _ _, .dataRange _ | .ldBVx _, .dataRange _ => true
  | .ldMemVx _, .dataRange _ | .ldVxMem _, .dataRange _ => true
  | _, _ => false

/-- The register an instruction names as its destination, or for Fx65 every register up to x
(10_state.md R20, R21). -/
def writesReg : Instr → Reg → Bool
  | .ldVxByte x _, r | .addVxByte x _, r | .ldVxVy x _, r | .or x _, r | .and x _, r | .xor x _, r => r == x
  | .addVxVy x _, r | .sub x _, r | .shr x _, r | .subn x _, r | .shl x _, r | .rnd x _, r => r == x
  | .ldVxDt x, r | .ldVxK x, r => r == x
  | .ldVxMem x, r => r ≤ x
  | _, _ => false

/-- The instructions that write VF as a flag (10_state.md R21). -/
def writesFlag : Instr → Bool
  | .addVxVy _ _ | .sub _ _ | .shr _ _ | .subn _ _ | .shl _ _ | .drw _ _ _ => true
  | _ => false

end Sys2Proof.Machine
end

