-- ==== Sys2Proof/Certificates/Slice0/Obligations.lean ====
section
/-! DEFINITION. The statements for the provers. Each docstring names the rules of spec/ it rests on; where it rests on a
decision of the spec (D<n>, 92_eei_decisions.md) or on a choice of the model, it says so. -/

open Sys2Proof Sys2Proof.Machine

/-! ### Encoding -/

/-- A few words written out from the patterns of R75 decode to the instructions they stand for, and words
of R76 to none. -/
def Obligations.WrittenWordsDecode : Prop :=
  decodeWord 0x00E0 = .ok .cls ∧ decodeWord 0x00EE = .ok .ret ∧ decodeWord 0x01E0 = .ok (.sys 0x1E0) ∧
  decodeWord 0x2ABC = .ok (.call 0xABC) ∧ decodeWord 0x71FF = .ok (.addVxByte 1 0xFF) ∧
  decodeWord 0x8AB5 = .ok (.sub 0xA 0xB) ∧ decodeWord 0xD12F = .ok (.drw 1 2 0xF) ∧
  decodeWord 0xE29E = .ok (.skp 2) ∧ decodeWord 0xF365 = .ok (.ldVxMem 3) ∧
  decodeWord 0x8008 = .error (.unknown 0x8008) ∧ decodeWord 0x5121 = .error (.unknown 0x5121)

/-- Decoding the word of a well-formed instruction gives that instruction, with every operand (R72 to R75;
the masks of families 0x0, 0x5 and 0x9 are decision D23). -/
def Obligations.DecodeEncodeAgree : Prop :=
  ∀ i : Instr, i.wellFormed = true → decodeWord (encode i) = .ok i

/-- Every word that decodes is the encoding of the instruction it decodes to, and that instruction is
well-formed (R74, R75; decision D23). -/
def Obligations.EncodeDecodeAgree : Prop :=
  ∀ (w : Word) (i : Instr), decodeWord w = .ok i → encode i = w ∧ i.wellFormed = true

/-- The decoder is the opcode map of R75: a word decodes to an instruction exactly of the row that the masks
and matches select for it. -/
def Obligations.DecoderFollowsOpcodeMap : Prop :=
  ∀ (w : Word) (i : Instr),
    (decodeWord w = .ok i → i.rowSelects w = true) ∧
    (i.rowSelects w = true → ∃ j, decodeWord w = .ok j ∧ j.rowMatch = i.rowMatch ∧ j.rowMask = i.rowMask)

/-- The undefined words are exactly the five groups of R76, and each is rejected under its own name. -/
def Obligations.UndefinedWordsAreTheListedGroups : Prop :=
  ∀ w : Word,
    (undefinedWord w = true → decodeWord w = .error (.unknown w)) ∧
    (undefinedWord w = false → ∃ i, decodeWord w = .ok i)

/-- The words of the opcode table reach the decoder as the hardware stores them: the byte at the lower
address is bits 15..8 (R51, R54), for every well-formed instruction. -/
def Obligations.TableWordsDecode : Prop :=
  ∀ i : Instr, i.wellFormed = true → decodeTableWord 16 (encode i).toNat = some i

/-! ### The step cycle -/

/-- When the two bytes at pc decode to an instruction, the step is exactly that instruction's effect at that
state, pc being still its own address; nothing is done around it (R51, R80; decisions D2 and D3). -/
def Obligations.StepRunsDecodedInstruction : Prop :=
  ∀ (s : State) (i : Instr), s.pc.toNat + 1 ≤ 0xFFF → decodeBytes (s.readBytes s.pc.toNat 2) = .ok (i, []) →
    step s = exec i s ∧
      (∀ t, exec i s = .next t → stepReport s = .ok) ∧ (∀ f, exec i s = .fault f → stepReport s = .fault f)

/-- Fetch reads the two bytes at pc, big-endian, at an odd pc like at an even one; where pc + 1 exceeds 0xFFF the
step faults with FETCH_RANGE and info pc (R51, R53, R54; decisions D2 and D15). -/
def Obligations.FetchIsBigEndianOrFaults : Prop :=
  ∀ s : State,
    (s.pc.toNat ≤ 0xFFE → ∃ w, fetchWord s = .ok w ∧
      w.toNat = (s.readByte s.pc.toNat).toNat * 256 + (s.readByte (s.pc.toNat + 1)).toNat) ∧
    (0xFFF ≤ s.pc.toNat → step s = .fault (.fetchRange s.pc.toNat) ∧
      stepReport s = .fault (.fetchRange s.pc.toNat))

/-- An undefined word is reported and only advances pc by 2 (R76, R80, R198; decision D19). -/
def Obligations.UnknownWordOnlyAdvances : Prop :=
  ∀ (s : State) (w : Word), fetchWord s = .ok w → undefinedWord w = true →
    stepReport s = .diag w ∧
      ∃ t, step s = .next t ∧ t.pc = s.pc + 2 ∧ SameExcept (· = .pc) s t

/-- An instruction word stored at pc, its high byte first, is what the next step runs: fetch sees earlier
writes (R61). -/
def Obligations.StoredInstructionIsFetched : Prop :=
  ∀ (s : State) (i : Instr), s.Inv → i.wellFormed = true → s.pc.toNat + 1 ≤ 0xFFF →
    step ((s.writeByte s.pc.toNat (highByte (encode i))).writeByte (s.pc.toNat + 1) (lowByte (encode i))) =
      exec i ((s.writeByte s.pc.toNat (highByte (encode i))).writeByte (s.pc.toNat + 1) (lowByte (encode i)))

/-- Each instruction that completes updates pc as its class in R81 says: pc + 2; pc + 4 or pc + 2 by the skip's condition
(R105 to R108, R170, R171); pc + 2 or no change of state by whether a key is held (R173); or the target (R100 to
R104), with nothing but pc, sp and the call stack changed. -/
def Obligations.PcUpdateFollowsClass : Prop :=
  ∀ (i : Instr) (s t : State), exec i s = .next t →
    match pcClass i with
    | .postlude => t.pc = s.pc + 2
    | .skip => (SkipHolds i s → t.pc = s.pc + 4) ∧ (¬ SkipHolds i s → t.pc = s.pc + 2)
    | .hold => ((∃ k : Fin 16, s.keys[k.val] = true) → t.pc = s.pc + 2) ∧
        ((∀ k : Fin 16, s.keys[k.val] = false) → t = s)
    | .target => Targets i s t.pc.toNat ∧ SameExcept (fun p => p = .pc ∨ p = .sp ∨ ∃ j, p = .slot j) s t

/-- At most one fault cause applies to each instruction, and the others raise none (R195, R190). -/
def Obligations.InstructionRaisesOnlyItsFault : Prop :=
  ∀ (i : Instr) (s : State) (f : Fault), exec i s = .fault f → mayRaise i f = true

/-- No instruction is refused: each has its effect or faults (the model's completeness; R1, R75). -/
def Obligations.NoInstructionIsRefused : Prop :=
  ∀ (i : Instr) (s : State) (r : Refusal), exec i s ≠ .refused r

/-- A faulting step changes no state, and every further step from there is the same fault
(R192, R193; decision D3). -/
def Obligations.FaultingStepChangesNothing : Prop :=
  ∀ (s : State) (f : Fault) (n : Nat), step s = .fault f →
    transactAll (List.replicate n .step) s = s ∧
      (transact .step (transactAll (List.replicate n .step) s)).2 = .stepped (.fault f)

/-- No fault depends on the keys: a key update does not help after a fault (R193). -/
def Obligations.FaultsDoNotDependOnKeys : Prop :=
  ∀ (s : State) (k : Vector Bool 16) (f : Fault), step s = .fault f → step (s.setKeys k) = .fault f

/-! ### Invariants and whole-machine rules -/

/-- What reset leaves, and that the reset transaction leaves it from any state (R35, R220, R221). The zeros of memory
outside the font, S, FB and K are decision D9 of the spec (log 4); that I, sp, DT and ST are among the registers
zeroed is log 5; FONT is a parameter (R33, log 2); the count of random bytes is the model's own and is kept
(log 16). -/
def Obligations.ResetValues : Prop :=
  (∀ p : Params,
    (∀ r, (State.resetWith p).reg r = 0) ∧ (State.resetWith p).i = 0 ∧ (State.resetWith p).pc = 0x200 ∧
    (State.resetWith p).sp = 0 ∧ (State.resetWith p).dt = 0 ∧ (State.resetWith p).st = 0 ∧
    (∀ j, (State.resetWith p).slot j = 0) ∧
    (∀ a (h : a < 80), (State.resetWith p).readByte a = p.font[a]) ∧
    (∀ a, 80 ≤ a → (State.resetWith p).readByte a = 0) ∧
    (∀ y x, (State.resetWith p).fb.cell y x = false) ∧
    (∀ k : Fin 16, (State.resetWith p).keys[k.val] = false)) ∧
  ∀ s : State, SameExcept (· = .draws) (State.resetWith s.params) (transact .reset s).1

/-- The invariant holds after reset, whatever the parameters are. -/
def Obligations.ResetMeetsInvariant : Prop :=
  ∀ p : Params, (State.resetWith p).Inv

/-- Every step that completes keeps the invariant: memory stays canonical, pc stays at most 0x10FE so that no
pc update wraps (R23), and every return address stays at most 0x1000 (R100). -/
def Obligations.StepKeepsInvariant : Prop :=
  ∀ s t : State, s.Inv → step s = .next t → t.Inv

/-- Every sequence of host transactions keeps the invariant and the parameters, steps that fault included
(R59, R211, R9). -/
def Obligations.TransactionsKeepInvariant : Prop :=
  ∀ (ts : List Transaction) (s : State), s.Inv →
    (transactAll ts s).Inv ∧ (transactAll ts s).params = s.params

/-- Memory in canonical form is determined by what it reads as: equal memories are equal data (the model's
form of R28). -/
def Obligations.CanonicalMemoryIsUnique : Prop :=
  ∀ (font : Vector Byte fontSize) (m m' : Memory), Memory.wf font m → Memory.wf font m' →
    (∀ a, a < memSize → Memory.read font m a = Memory.read font m' a) → m = m'

/-- MemWrite sets one byte and changes no other, and keeps the canonical form (R65; decision D2). -/
def Obligations.MemWriteSetsOneByte : Prop :=
  ∀ (s : State) (a c : Nat) (b : Byte), Memory.wf s.params.font s.mem → a < memSize →
    Memory.wf (s.writeByte a b).params.font (s.writeByte a b).mem ∧
    (s.writeByte a b).readByte c = if c = a then b else s.readByte c

/-- Only 00E0 and Dxyn write the framebuffer (R29), only Fx33 and Fx55 write memory (R64), only 2nnn writes a
call-stack slot (R26), and only 2nnn and 00EE write sp (R32). -/
def Obligations.MemorySpacesHaveTheirWriters : Prop :=
  ∀ (i : Instr) (s t : State), exec i s = .next t →
    (∀ y x, t.fb.cell y x ≠ s.fb.cell y x → i = .cls ∨ ∃ vx vy n, i = .drw vx vy n) ∧
    (∀ a, t.readByte a ≠ s.readByte a → ∃ x, i = .ldBVx x ∨ i = .ldMemVx x) ∧
    (∀ j, t.slot j ≠ s.slot j → ∃ nnn, i = .call nnn) ∧
    (t.sp ≠ s.sp → i = .ret ∨ ∃ nnn, i = .call nnn)

/-- Only Annn, Fx1E and Fx29 write I (R22), only Fx15 writes DT and only Fx18 writes ST (R27), no instruction
writes a key (R30) or a parameter (R9), and only Cxkk draws a random byte (R16). -/
def Obligations.RegistersHaveTheirWriters : Prop :=
  ∀ (i : Instr) (s t : State), exec i s = .next t →
    (t.i ≠ s.i → (∃ nnn, i = .ldI nnn) ∨ ∃ x, i = .addIVx x ∨ i = .ldFVx x) ∧
    (t.dt ≠ s.dt → ∃ x, i = .ldDtVx x) ∧ (t.st ≠ s.st → ∃ x, i = .ldStVx x) ∧
    t.keys = s.keys ∧ t.params = s.params ∧ (t.draws ≠ s.draws → ∃ x kk, i = .rnd x kk)

/-- A general register changes only as the destination of its instruction, or as VF by one of the six instructions
that write VF as a flag (R20, R21). -/
def Obligations.GeneralRegistersHaveTheirWriters : Prop :=
  ∀ (i : Instr) (s t : State) (r : Reg), exec i s = .next t → t.reg r ≠ s.reg r →
    writesReg i r = true ∨ (r = vF ∧ writesFlag i = true)

/-- The keys reach an instruction only through Ex9E, ExA1 and Fx0A (R64, R30): any other instruction does the same
whatever keys are held. -/
def Obligations.KeysReadOnlyByKeyInstructions : Prop :=
  ∀ (i : Instr) (s : State) (k : Vector Bool 16), (∀ x, i ≠ .skp x ∧ i ≠ .sknp x ∧ i ≠ .ldVxK x) →
    exec i (s.setKeys k) = mapNext (·.setKeys k) (exec i s)

/-- No instruction reads ST (R27), and only Fx07 reads DT: any other instruction does the same whatever the timers hold,
and leaves the timer as it was, but for Fx18 and Fx15, which give the very same state whatever the timer they
write held. -/
def Obligations.TimersReadOnlyByDelayRead : Prop :=
  ∀ (i : Instr) (s : State) (b : Byte),
    ((∀ x, i ≠ .ldStVx x) → exec i (s.setSt b) = mapNext (·.setSt b) (exec i s)) ∧
    (∀ x, exec (.ldStVx x) (s.setSt b) = exec (.ldStVx x) s) ∧
    ((∀ x, i ≠ .ldDtVx x ∧ i ≠ .ldVxDt x) → exec i (s.setDt b) = mapNext (·.setDt b) (exec i s)) ∧
    (∀ x, exec (.ldDtVx x) (s.setDt b) = exec (.ldDtVx x) s)

/-- The framebuffer is read by Dxyn alone and never by a program as data (R64): any instruction but Dxyn and 00E0
does the same whatever the cells hold. -/
def Obligations.FramebufferReadOnlyByDraw : Prop :=
  ∀ (i : Instr) (s : State) (fb : Framebuffer), i ≠ .cls → (∀ x y n, i ≠ .drw x y n) →
    exec i (s.setFb fb) = mapNext (·.setFb fb) (exec i s)

/-! ### Control transfer and skips -/

/-- 0nnn and 1nnn set pc to nnn, zero-extended, and change nothing else (R101, R102): every word of family 0x0 but 0x00E0
and 0x00EE is SYS, a jump to its own address leaves all state unchanged, and a jump to 0xFFF makes the next
fetch fault. -/
def Obligations.JumpsSetPc : Prop :=
  ∀ (s : State) (nnn : Addr),
    (nnn ≠ 0x0E0 → nnn ≠ 0x0EE → EncodedAs (.sys nnn) nnn.toNat) ∧
    (∃ t, exec (.sys nnn) s = .next t ∧ t.pc.toNat = nnn.toNat ∧ SameExcept (· = .pc) s t) ∧
    EncodedAs (.jp nnn) (0x1000 + nnn.toNat) ∧
    (∃ t, exec (.jp nnn) s = .next t ∧ t.pc.toNat = nnn.toNat ∧ SameExcept (· = .pc) s t ∧
      (nnn.toNat = 0xFFF → step t = .fault (.fetchRange 0xFFF))) ∧
    (s.pc.toNat = nnn.toNat → exec (.jp nnn) s = .next s)

/-- Bnnn sets pc to (V0 + nnn) mod 65536, which never wraps, and changes nothing else; a target above 0xFFE makes the
next fetch fault (R104). -/
def Obligations.JumpWithOffsetAddsV0 : Prop :=
  ∀ (s : State) (nnn : Addr),
    EncodedAs (.jpV0 nnn) (0xB000 + nnn.toNat) ∧ (s.reg 0).toNat + nnn.toNat ≤ 0x10FE ∧
    ∃ t, exec (.jpV0 nnn) s = .next t ∧ t.pc.toNat = ((s.reg 0).toNat + nnn.toNat) % 65536 ∧
      SameExcept (· = .pc) s t ∧
      (0xFFE < (s.reg 0).toNat + nnn.toNat → step t = .fault (.fetchRange ((s.reg 0).toNat + nnn.toNat)))

/-- 2nnn pushes pc + 2 at S[sp], increments sp and jumps; with sp = 16 it faults (R103; decision D5). -/
def Obligations.CallPushesReturnAddress : Prop :=
  ∀ (s : State) (nnn : Addr),
    (∀ h : s.sp.val < 16, ∃ t, exec (.call nnn) s = .next t ∧
      (t.slot ⟨s.sp.val, h⟩).toNat = (s.pc.toNat + 2) % 65536 ∧ t.sp.val = s.sp.val + 1 ∧
      t.pc.toNat = nnn.toNat ∧ SameExcept (fun p => p = .pc ∨ p = .sp ∨ p = .slot ⟨s.sp.val, h⟩) s t) ∧
    (s.sp.val = 16 → exec (.call nnn) s = .fault (.stackOverflow 16))

/-- 00EE decrements sp and loads pc from the slot at the new sp, without clearing the slot; with sp = 0 it
faults (R100; decision D5). -/
def Obligations.ReturnPopsReturnAddress : Prop :=
  ∀ s : State,
    (∀ j : Fin 16, s.sp.val = j.val + 1 → ∃ t, exec .ret s = .next t ∧ t.sp.val = j.val ∧
      t.pc = s.slot j ∧ SameExcept (fun p => p = .pc ∨ p = .sp) s t) ∧
    (s.sp.val = 0 → exec .ret s = .fault (.stackUnderflow 0))

/-- A call and then a return restore pc to the instruction after the call and sp to its value before; the
stale slot is all that stays (R103's round-trip law; R26). -/
def Obligations.CallThenReturnRestores : Prop :=
  ∀ (s : State) (nnn : Addr) (h : s.sp.val < 16),
    ∃ t u, exec (.call nnn) s = .next t ∧ exec .ret t = .next u ∧ u.pc = s.pc + 2 ∧ u.sp = s.sp ∧
      SameExcept (fun p => p = .pc ∨ p = .slot ⟨s.sp.val, h⟩) s u

/-- 3xkk skips when V[x] = kk and 4xkk when it is not (R105, R106); nothing but pc changes. -/
def Obligations.SkipOnByteCompare : Prop :=
  ∀ (s : State) (x : Reg) (kk : Byte),
    EncodedAs (.seVxByte x kk) (0x3000 + 0x100 * x.val + kk.toNat) ∧
    EncodedAs (.sneVxByte x kk) (0x4000 + 0x100 * x.val + kk.toNat) ∧
    (∃ t, exec (.seVxByte x kk) s = .next t ∧ SameExcept (· = .pc) s t ∧
      (s.reg x = kk → t.pc = s.pc + 4) ∧ (s.reg x ≠ kk → t.pc = s.pc + 2)) ∧
    (∃ t, exec (.sneVxByte x kk) s = .next t ∧ SameExcept (· = .pc) s t ∧
      (s.reg x ≠ kk → t.pc = s.pc + 4) ∧ (s.reg x = kk → t.pc = s.pc + 2))

/-- 5xy0 skips when V[x] = V[y] and 9xy0 when they differ (R107, R108; that a low nibble other than 0 is no
such instruction is decision D23); nothing but pc changes. -/
def Obligations.SkipOnRegisterCompare : Prop :=
  ∀ (s : State) (x y : Reg),
    (∃ t, exec (.seVxVy x y) s = .next t ∧ SameExcept (· = .pc) s t ∧
      (s.reg x = s.reg y → t.pc = s.pc + 4) ∧ (s.reg x ≠ s.reg y → t.pc = s.pc + 2)) ∧
    (∃ t, exec (.sneVxVy x y) s = .next t ∧ SameExcept (· = .pc) s t ∧
      (s.reg x ≠ s.reg y → t.pc = s.pc + 4) ∧ (s.reg x = s.reg y → t.pc = s.pc + 2))

/-! ### Registers and ALU -/

/-- 6xkk, 7xkk and 8xy0 write V[x] and nothing else but pc, VF included unless x = 0xF (R120, R121, R122); the last
clause is the law under R121: after 6xkk and then 7xkk2, V[x] = (kk + kk2) mod 256. -/
def Obligations.LoadAndAddImmediate : Prop :=
  ∀ (s : State) (x y : Reg) (kk kk2 : Byte),
    EncodedAs (.ldVxByte x kk) (0x6000 + 0x100 * x.val + kk.toNat) ∧
    EncodedAs (.addVxByte x kk) (0x7000 + 0x100 * x.val + kk.toNat) ∧
    EncodedAs (.ldVxVy x y) (0x8000 + 0x100 * x.val + 0x10 * y.val) ∧
    (∃ t, exec (.ldVxByte x kk) s = .next t ∧ t.reg x = kk ∧ t.pc = s.pc + 2 ∧
      SameExcept (fun p => p = .pc ∨ p = .reg x) s t) ∧
    (∃ t, exec (.addVxByte x kk) s = .next t ∧ (t.reg x).toNat = ((s.reg x).toNat + kk.toNat) % 256 ∧
      t.pc = s.pc + 2 ∧ SameExcept (fun p => p = .pc ∨ p = .reg x) s t) ∧
    (∃ t, exec (.ldVxVy x y) s = .next t ∧ t.reg x = s.reg y ∧ t.pc = s.pc + 2 ∧
      SameExcept (fun p => p = .pc ∨ p = .reg x) s t) ∧
    (∃ t u, exec (.ldVxByte x kk) s = .next t ∧ exec (.addVxByte x kk2) t = .next u ∧
      (u.reg x).toNat = (kk.toNat + kk2.toNat) % 256)

/-- 8xy1, 8xy2 and 8xy3 combine bit by bit and write no flag (R123, R124, R125). -/
def Obligations.LogicOperationsWriteNoFlag : Prop :=
  ∀ (s : State) (x y : Reg),
    EncodedAs (.or x y) (0x8001 + 0x100 * x.val + 0x10 * y.val) ∧
    EncodedAs (.and x y) (0x8002 + 0x100 * x.val + 0x10 * y.val) ∧
    EncodedAs (.xor x y) (0x8003 + 0x100 * x.val + 0x10 * y.val) ∧
    (∃ t, exec (.or x y) s = .next t ∧ t.pc = s.pc + 2 ∧ SameExcept (fun p => p = .pc ∨ p = .reg x) s t ∧
      ∀ k, (t.reg x).getLsbD k = ((s.reg x).getLsbD k || (s.reg y).getLsbD k)) ∧
    (∃ t, exec (.and x y) s = .next t ∧ t.pc = s.pc + 2 ∧ SameExcept (fun p => p = .pc ∨ p = .reg x) s t ∧
      ∀ k, (t.reg x).getLsbD k = ((s.reg x).getLsbD k && (s.reg y).getLsbD k)) ∧
    (∃ t, exec (.xor x y) s = .next t ∧ t.pc = s.pc + 2 ∧ SameExcept (fun p => p = .pc ∨ p = .reg x) s t ∧
      ∀ k, (t.reg x).getLsbD k = ((s.reg x).getLsbD k ^^ (s.reg y).getLsbD k))

/-- 8xy4: V[x] is the sum mod 256, and VF, written last, is 1 exactly when the exact sum of the
pre-instruction values exceeds 255 (R126). -/
def Obligations.AddSetsCarry : Prop :=
  ∀ (s : State) (x y : Reg),
    EncodedAs (.addVxVy x y) (0x8004 + 0x100 * x.val + 0x10 * y.val) ∧
    ∃ t, exec (.addVxVy x y) s = .next t ∧ t.pc = s.pc + 2 ∧
      (t.reg vF).toNat = (if (s.reg x).toNat + (s.reg y).toNat > 255 then 1 else 0) ∧
      (x ≠ vF → (t.reg x).toNat = ((s.reg x).toNat + (s.reg y).toNat) % 256) ∧
      SameExcept (fun p => p = .pc ∨ p = .reg x ∨ p = .reg vF) s t

/-- 8xy5: VF = (V[x] > V[y]) is written first, then V[x] = V[x] - V[y] mod 256 of the registers after that, in every
aliasing of x and y with VF (R127, R132, R133; decision D10). -/
def Obligations.SubtractSetsNoBorrow : Prop :=
  ∀ (s : State) (x y : Reg),
    ∃ t, exec (.sub x y) s = .next t ∧ t.pc = s.pc + 2 ∧
      SameExcept (fun p => p = .pc ∨ p = .reg x ∨ p = .reg vF) s t ∧
      ∀ f, f = (if (s.reg x).toNat > (s.reg y).toNat then 1 else 0) →
        (x ≠ vF → (t.reg vF).toNat = f) ∧
        (x ≠ vF → y ≠ vF → (t.reg x).toNat = ((s.reg x).toNat + 256 - (s.reg y).toNat) % 256) ∧
        (x = vF → y ≠ vF → (t.reg vF).toNat = (f + 256 - (s.reg y).toNat) % 256) ∧
        (x ≠ vF → y = vF → (t.reg x).toNat = ((s.reg x).toNat + 256 - f) % 256) ∧
        (x = vF → y = vF → (t.reg vF).toNat = 0)

/-- 8xy7: as 8xy5 with the operands exchanged (R129, R132, R133; decision D10). -/
def Obligations.ReverseSubtractSetsNoBorrow : Prop :=
  ∀ (s : State) (x y : Reg),
    ∃ t, exec (.subn x y) s = .next t ∧ t.pc = s.pc + 2 ∧
      SameExcept (fun p => p = .pc ∨ p = .reg x ∨ p = .reg vF) s t ∧
      ∀ f, f = (if (s.reg y).toNat > (s.reg x).toNat then 1 else 0) →
        (x ≠ vF → (t.reg vF).toNat = f) ∧
        (x ≠ vF → y ≠ vF → (t.reg x).toNat = ((s.reg y).toNat + 256 - (s.reg x).toNat) % 256) ∧
        (x = vF → y ≠ vF → (t.reg vF).toNat = ((s.reg y).toNat + 256 - f) % 256) ∧
        (x ≠ vF → y = vF → (t.reg x).toNat = (f + 256 - (s.reg x).toNat) % 256) ∧
        (x = vF → y = vF → (t.reg vF).toNat = 0)

/-- 8xy6 and 8xyE shift V[x] by one bit, whatever y is; the bit shifted out is written to VF first
(R128, R130, R133; decision D10). -/
def Obligations.ShiftsSetBitShiftedOut : Prop :=
  ∀ (s : State) (x y : Reg),
    (∃ t, exec (.shr x y) s = .next t ∧ t.pc = s.pc + 2 ∧
      SameExcept (fun p => p = .pc ∨ p = .reg x ∨ p = .reg vF) s t ∧
      (x ≠ vF → (t.reg vF).toNat = (s.reg x).toNat % 2 ∧ (t.reg x).toNat = (s.reg x).toNat / 2) ∧
      (x = vF → (t.reg vF).toNat = 0)) ∧
    (∃ t, exec (.shl x y) s = .next t ∧ t.pc = s.pc + 2 ∧
      SameExcept (fun p => p = .pc ∨ p = .reg x ∨ p = .reg vF) s t ∧
      (x ≠ vF → (t.reg vF).toNat = (s.reg x).toNat / 128 ∧ (t.reg x).toNat = (s.reg x).toNat * 2 % 256) ∧
      (x = vF → (t.reg vF).toNat = if (s.reg x).toNat ≥ 128 then 2 else 0))

/-- Cxkk: for EVERY random byte r, V[x] = r AND kk and nothing else but pc changes; exec runs it with the free value
of the draw, which it counts (R134, R16; decision D12; the count is the model's own, log 1). -/
def Obligations.RandomIsMaskedFreeByte : Prop :=
  ∀ (s : State) (x : Reg) (kk : Byte),
    (∀ r : Byte, ∃ t, execRndWith r x kk s = .next t ∧ t.reg x = r &&& kk ∧ t.pc = s.pc + 2 ∧
      SameExcept (fun p => p = .pc ∨ p = .reg x) s t) ∧
    (∃ t, exec (.rnd x kk) s = .next t ∧ t.reg x = Config.rnd s.draws &&& kk ∧ t.draws = s.draws + 1 ∧
      t.pc = s.pc + 2 ∧ SameExcept (fun p => p = .pc ∨ p = .reg x ∨ p = .draws) s t)

/-! ### Index register and memory -/

/-- Annn and Fx1E write I and nothing else but pc; Fx1E adds modulo 65536 and writes no flag (R140, R141). -/
def Obligations.IndexLoadAndAdd : Prop :=
  ∀ (s : State) (nnn : Addr) (x : Reg),
    EncodedAs (.ldI nnn) (0xA000 + nnn.toNat) ∧ EncodedAs (.addIVx x) (0xF01E + 0x100 * x.val) ∧
    (∃ t, exec (.ldI nnn) s = .next t ∧ t.i.toNat = nnn.toNat ∧ t.pc = s.pc + 2 ∧
      SameExcept (fun p => p = .pc ∨ p = .index) s t) ∧
    (∃ t, exec (.addIVx x) s = .next t ∧ t.i.toNat = (s.i.toNat + (s.reg x).toNat) % 65536 ∧
      t.pc = s.pc + 2 ∧ SameExcept (fun p => p = .pc ∨ p = .index) s t)

/-- Fx29: I = 5 * V[x], or with FX29_SOURCE_COMPAT the byte found at that address; it faults in neither mode
(R142; decision D7). -/
def Obligations.GlyphAddressInBothModes : Prop :=
  ∀ (s : State) (x : Reg),
    ∃ t, exec (.ldFVx x) s = .next t ∧ t.pc = s.pc + 2 ∧
      SameExcept (fun p => p = .pc ∨ p = .index) s t ∧
      (s.params.fx29SourceCompat = false → t.i.toNat = 5 * (s.reg x).toNat) ∧
      (s.params.fx29SourceCompat = true → t.i.toNat = (s.readByte (5 * (s.reg x).toNat)).toNat)

/-- Fx33 stores the hundreds, tens and ones of V[x] at I, I + 1 and I + 2, and changes nothing else but pc
(R143; decision D2). -/
def Obligations.DecimalDigitsStored : Prop :=
  ∀ (s : State) (x : Reg), s.Inv → s.i.toNat + 2 ≤ 0xFFF →
    ∃ t, exec (.ldBVx x) s = .next t ∧ t.pc = s.pc + 2 ∧
      (t.readByte s.i.toNat).toNat = (s.reg x).toNat / 100 ∧
      (t.readByte (s.i.toNat + 1)).toNat = (s.reg x).toNat / 10 % 10 ∧
      (t.readByte (s.i.toNat + 2)).toNat = (s.reg x).toNat % 10 ∧
      SameExcept (fun p => p = .pc ∨ ∃ k, k < 3 ∧ p = .byte (s.i.toNat + k)) s t

/-- Fx55 stores V0 to V[x] at I to I + x, and changes nothing else but pc; I is unchanged (R144; decision D2). -/
def Obligations.RegistersStored : Prop :=
  ∀ (s : State) (x : Reg), s.Inv → s.i.toNat + x.val ≤ 0xFFF →
    ∃ t, exec (.ldMemVx x) s = .next t ∧ t.pc = s.pc + 2 ∧
      (∀ r : Reg, r ≤ x → t.readByte (s.i.toNat + r.val) = s.reg r) ∧
      SameExcept (fun p => p = .pc ∨ ∃ k, k ≤ x.val ∧ p = .byte (s.i.toNat + k)) s t

/-- Fx65 loads V0 to V[x] from I to I + x, and changes nothing else but pc; memory and I are unchanged
(R145; decision D2). -/
def Obligations.RegistersLoaded : Prop :=
  ∀ (s : State) (x : Reg), s.i.toNat + x.val ≤ 0xFFF →
    ∃ t, exec (.ldVxMem x) s = .next t ∧ t.pc = s.pc + 2 ∧
      (∀ r : Reg, r ≤ x → t.reg r = s.readByte (s.i.toNat + r.val)) ∧
      SameExcept (fun p => p = .pc ∨ ∃ r : Reg, r ≤ x ∧ p = .reg r) s t

/-- Storing V0 to V[x] and loading them back, with whatever the registers hold in between, restores them
(R144, R145). -/
def Obligations.StoreThenLoadRestores : Prop :=
  ∀ (s : State) (x : Reg) (v : Vector Byte 16), s.Inv → s.i.toNat + x.val ≤ 0xFFF →
    ∃ t u, exec (.ldMemVx x) s = .next t ∧ exec (.ldVxMem x) { t with v := v } = .next u ∧
      (∀ r : Reg, r ≤ x → u.reg r = s.reg r) ∧ (∀ r : Reg, x < r → u.reg r = v[r.val])

/-- Fx33, Fx55, Fx65 and Dxyn with n ≥ 1 fault with DATA_RANGE when an address exceeds 0xFFF; the info is the first
such address in ascending order (R52, R143, R144, R145, R161; decisions D2 and D18). -/
def Obligations.DataRangeFaultReportsFirstAddress : Prop :=
  ∀ (s : State) (x y : Reg) (n : Nibble),
    (0xFFF < s.i.toNat + 2 → exec (.ldBVx x) s = .fault (.dataRange (max s.i.toNat 0x1000))) ∧
    (0xFFF < s.i.toNat + x.val → exec (.ldMemVx x) s = .fault (.dataRange (max s.i.toNat 0x1000))) ∧
    (0xFFF < s.i.toNat + x.val → exec (.ldVxMem x) s = .fault (.dataRange (max s.i.toNat 0x1000))) ∧
    (1 ≤ n.toNat → 0xFFF < s.i.toNat + n.toNat - 1 →
      exec (.drw x y n) s = .fault (.dataRange (max s.i.toNat 0x1000)))

/-! ### Display -/

/-- 00E0 turns every cell off and changes nothing else but pc, VF included (R160). -/
def Obligations.ClearTurnsCellsOff : Prop :=
  EncodedAs .cls 0x00E0 ∧ decodeWord 0x01E0 = .ok (.sys 0x1E0) ∧ ∀ s : State,
    ∃ t, exec .cls s = .next t ∧ t.pc = s.pc + 2 ∧ (∀ y x, t.fb.cell y x = false) ∧
      SameExcept (fun p => p = .pc ∨ ∃ y x, p = .cell y x) s t

/-- Dxyn in the order-free form of R163: each cell that a sprite bit 1 covers is toggled, no other cell changes,
and VF = 1 exactly when a covered cell was on; nothing else but pc changes (R161, R163; decisions D2 and
D11: V[x] and V[y] are those before VF is cleared). -/
def Obligations.DrawTogglesCoveredCells : Prop :=
  ∀ (s : State) (x y : Reg) (n : Nibble), n.toNat = 0 ∨ s.i.toNat + n.toNat - 1 ≤ 0xFFF →
    ∃ t, exec (.drw x y n) s = .next t ∧ t.pc = s.pc + 2 ∧
      (∀ cy cx, SpriteCovers s (s.reg x).toNat (s.reg y).toNat s.i.toNat n.toNat cy cx →
        t.fb.cell cy cx = !s.fb.cell cy cx) ∧
      (∀ cy cx, ¬ SpriteCovers s (s.reg x).toNat (s.reg y).toNat s.i.toNat n.toNat cy cx →
        t.fb.cell cy cx = s.fb.cell cy cx) ∧
      ((∃ cy cx, SpriteCovers s (s.reg x).toNat (s.reg y).toNat s.i.toNat n.toNat cy cx ∧
        s.fb.cell cy cx = true) → (t.reg vF).toNat = 1) ∧
      ((∀ cy cx, SpriteCovers s (s.reg x).toNat (s.reg y).toNat s.i.toNat n.toNat cy cx →
        s.fb.cell cy cx = false) → (t.reg vF).toNat = 0) ∧
      SameExcept (fun p => p = .pc ∨ p = .reg vF ∨ ∃ cy cx, p = .cell cy cx) s t

/-- The collision detector (R161, R162): after a Dxyn, VF = 1 if some sprite bit 1 landed on a cell that was on, and that
cell is then off; else VF = 0. Where x or y is 0xF, that the sprite lies at V[x] and V[y] as they were before VF is
cleared is decision D11 of the spec (log 12). -/
def Obligations.CollisionFlagOfDraw : Prop :=
  ∀ (s t : State) (x y : Reg) (n : Nibble), exec (.drw x y n) s = .next t →
    ((t.reg vF).toNat = 1 ↔ ∃ cy cx,
      SpriteCovers s (s.reg x).toNat (s.reg y).toNat s.i.toNat n.toNat cy cx ∧ s.fb.cell cy cx = true) ∧
    ((t.reg vF).toNat = 1 ∨ (t.reg vF).toNat = 0) ∧
    (∀ cy cx, SpriteCovers s (s.reg x).toNat (s.reg y).toNat s.i.toNat n.toNat cy cx →
      s.fb.cell cy cx = true → t.fb.cell cy cx = false)

/-- Drawing the same sprite twice restores every cell, and the second VF is 1 exactly when some sprite bit 1 landed
on a cell that was off before the first draw; x and y are not 0xF (R164). -/
def Obligations.DrawTwiceRestores : Prop :=
  ∀ (s : State) (x y : Reg) (n : Nibble), x ≠ vF → y ≠ vF →
    n.toNat = 0 ∨ s.i.toNat + n.toNat - 1 ≤ 0xFFF →
    ∃ t u, exec (.drw x y n) s = .next t ∧ exec (.drw x y n) t = .next u ∧
      (∀ cy cx, u.fb.cell cy cx = s.fb.cell cy cx) ∧
      ((u.reg vF).toNat = 1 ↔ ∃ cy cx,
        SpriteCovers s (s.reg x).toNat (s.reg y).toNat s.i.toNat n.toNat cy cx ∧ s.fb.cell cy cx = false)

/-! ### Keys, timers and the host -/

/-- Ex9E skips when the key V[x] is held and ExA1 when it is not; with V[x] > 0xF both fault with KEY_RANGE
(R170, R171; decision D6). -/
def Obligations.KeySkipsTestLevel : Prop :=
  ∀ (s : State) (x : Reg),
    (∀ k : Fin 16, (s.reg x).toNat = k.val →
      (∃ t, exec (.skp x) s = .next t ∧ SameExcept (· = .pc) s t ∧
        (s.keys[k.val] = true → t.pc = s.pc + 4) ∧ (s.keys[k.val] = false → t.pc = s.pc + 2)) ∧
      (∃ t, exec (.sknp x) s = .next t ∧ SameExcept (· = .pc) s t ∧
        (s.keys[k.val] = false → t.pc = s.pc + 4) ∧ (s.keys[k.val] = true → t.pc = s.pc + 2))) ∧
    (0xF < (s.reg x).toNat →
      exec (.skp x) s = .fault (.keyRange (s.reg x).toNat) ∧
      exec (.sknp x) s = .fault (.keyRange (s.reg x).toNat))

/-- Fx0A: the lowest held key goes to V[x] and pc advances; with no key held the step completes and changes no
state (R173). -/
def Obligations.KeyWaitTakesLowestKey : Prop :=
  ∀ (s : State) (x : Reg),
    EncodedAs (.ldVxK x) (0xF00A + 0x100 * x.val) ∧
    (∀ k : Fin 16, s.keys[k.val] = true → (∀ j : Fin 16, j < k → s.keys[j.val] = false) →
      ∃ t, exec (.ldVxK x) s = .next t ∧ (t.reg x).toNat = k.val ∧ t.pc = s.pc + 2 ∧
        SameExcept (fun p => p = .pc ∨ p = .reg x) s t) ∧
    ((∀ k : Fin 16, s.keys[k.val] = false) → exec (.ldVxK x) s = .next s)

/-- Fx07 reads DT, Fx15 writes DT and Fx18 writes ST and with it the sound output; nothing else but pc changes
(R172, R174, R175). That the sound output is ST ≠ 0 is R209, decision D22 of the spec (log 22). -/
def Obligations.TimerRegisterMoves : Prop :=
  ∀ (s : State) (x : Reg),
    EncodedAs (.ldVxDt x) (0xF007 + 0x100 * x.val) ∧ EncodedAs (.ldDtVx x) (0xF015 + 0x100 * x.val) ∧
    EncodedAs (.ldStVx x) (0xF018 + 0x100 * x.val) ∧
    (∃ t, exec (.ldVxDt x) s = .next t ∧ t.reg x = s.dt ∧ t.pc = s.pc + 2 ∧
      SameExcept (fun p => p = .pc ∨ p = .reg x) s t) ∧
    (∃ t, exec (.ldDtVx x) s = .next t ∧ t.dt = s.reg x ∧ t.pc = s.pc + 2 ∧
      SameExcept (fun p => p = .pc ∨ p = .dt) s t) ∧
    (∃ t, exec (.ldStVx x) s = .next t ∧ t.st = s.reg x ∧ t.pc = s.pc + 2 ∧
      (t.soundActive = true ↔ (s.reg x).toNat ≠ 0) ∧
      SameExcept (fun p => p = .pc ∨ p = .st) s t)

/-- The tick counts both timers down by 1, each floored at zero, changes no other state and has no outcome
(R205). -/
def Obligations.TickCountsDown : Prop :=
  ∀ s : State,
    s.tick.dt.toNat = (if s.dt.toNat > 0 then s.dt.toNat - 1 else 0) ∧
    s.tick.st.toNat = (if s.st.toNat > 0 then s.st.toNat - 1 else 0) ∧
    SameExcept (fun p => p = .dt ∨ p = .st) s s.tick ∧ transact .tick s = (s.tick, .none)

/-- After k ticks a timer holds its value less k, and 0 from then on; the timers are independent, and of the
instructions only Fx15 and Fx18 write them (R206). -/
def Obligations.TimersReachZero : Prop :=
  (∀ (s : State) (k : Nat),
    (transactAll (List.replicate k .tick) s).dt.toNat = s.dt.toNat - k ∧
    (transactAll (List.replicate k .tick) s).st.toNat = s.st.toNat - k) ∧
  (∀ (i : Instr) (s t : State), exec i s = .next t →
    (t.dt ≠ s.dt → ∃ x, i = .ldDtVx x) ∧ (t.st ≠ s.st → ∃ x, i = .ldStVx x))

/-- The load port writes an image of at most 3584 bytes at 0x200 and changes nothing else; a longer one is rejected
and changes nothing (R58; decision D17). -/
def Obligations.LoadPortWritesImage : Prop :=
  ∀ (s : State) (image : List Byte), s.Inv →
    (image.length ≤ 3584 →
      (transact (.load image) s).2 = .loaded ∧
      (∀ k (h : k < image.length), (transact (.load image) s).1.readByte (0x200 + k) = image[k]) ∧
      SameExcept (fun p => ∃ k, k < image.length ∧ p = .byte (0x200 + k)) s (transact (.load image) s).1) ∧
    (3584 < image.length → transact (.load image) s = (s, .loadRejected))

/-- set_keys replaces all 16 flags and changes nothing else; the outputs change no state, and sound is active exactly
when ST ≠ 0 (R208, R209; decisions D22 and D24). -/
def Obligations.KeysInOutputsOut : Prop :=
  ∀ (s : State) (k : Vector Bool 16),
    ((transact (.setKeys k) s).1.keys = k ∧
      SameExcept (fun p => ∃ j, p = .key j) s (transact (.setKeys k) s).1) ∧
    transact .readFb s = (s, .frame s.fb) ∧
    (∃ a, transact .readSound s = (s, .sound a) ∧ (a = true ↔ s.st.toNat ≠ 0))
end

