-- ==== Sys2Proof/Laws/State.lean ====
section
/-! SUPPORT. What each update of State leaves in each field and each accessor: one lemma per field per update. -/

namespace Sys2Proof.Machine

variable (s : State)

@[simp] theorem setReg_v (r : Reg) (b : Byte) : (s.setReg r b).v = s.v.set r.val b r.isLt := rfl
@[simp] theorem setReg_i (r : Reg) (b : Byte) : (s.setReg r b).i = s.i := rfl
@[simp] theorem setReg_pc (r : Reg) (b : Byte) : (s.setReg r b).pc = s.pc := rfl
@[simp] theorem setReg_sp (r : Reg) (b : Byte) : (s.setReg r b).sp = s.sp := rfl
@[simp] theorem setReg_stack (r : Reg) (b : Byte) : (s.setReg r b).stack = s.stack := rfl
@[simp] theorem setReg_dt (r : Reg) (b : Byte) : (s.setReg r b).dt = s.dt := rfl
@[simp] theorem setReg_st (r : Reg) (b : Byte) : (s.setReg r b).st = s.st := rfl
@[simp] theorem setReg_mem (r : Reg) (b : Byte) : (s.setReg r b).mem = s.mem := rfl
@[simp] theorem setReg_fb (r : Reg) (b : Byte) : (s.setReg r b).fb = s.fb := rfl
@[simp] theorem setReg_keys (r : Reg) (b : Byte) : (s.setReg r b).keys = s.keys := rfl
@[simp] theorem setReg_params (r : Reg) (b : Byte) : (s.setReg r b).params = s.params := rfl
@[simp] theorem setReg_draws (r : Reg) (b : Byte) : (s.setReg r b).draws = s.draws := rfl
@[simp] theorem setReg_slot (r : Reg) (b : Byte) (q : Fin 16) : (s.setReg r b).slot q = s.slot q := rfl
@[simp] theorem setReg_readByte (r : Reg) (b : Byte) (c : Nat) : (s.setReg r b).readByte c = s.readByte c := rfl

@[simp] theorem setFlag_v (f : Byte) : (s.setFlag f).v = s.v.set vF.val f vF.isLt := rfl
@[simp] theorem setFlag_i (f : Byte) : (s.setFlag f).i = s.i := rfl
@[simp] theorem setFlag_pc (f : Byte) : (s.setFlag f).pc = s.pc := rfl
@[simp] theorem setFlag_sp (f : Byte) : (s.setFlag f).sp = s.sp := rfl
@[simp] theorem setFlag_stack (f : Byte) : (s.setFlag f).stack = s.stack := rfl
@[simp] theorem setFlag_dt (f : Byte) : (s.setFlag f).dt = s.dt := rfl
@[simp] theorem setFlag_st (f : Byte) : (s.setFlag f).st = s.st := rfl
@[simp] theorem setFlag_mem (f : Byte) : (s.setFlag f).mem = s.mem := rfl
@[simp] theorem setFlag_fb (f : Byte) : (s.setFlag f).fb = s.fb := rfl
@[simp] theorem setFlag_keys (f : Byte) : (s.setFlag f).keys = s.keys := rfl
@[simp] theorem setFlag_params (f : Byte) : (s.setFlag f).params = s.params := rfl
@[simp] theorem setFlag_draws (f : Byte) : (s.setFlag f).draws = s.draws := rfl
@[simp] theorem setFlag_slot (f : Byte) (q : Fin 16) : (s.setFlag f).slot q = s.slot q := rfl
@[simp] theorem setFlag_readByte (f : Byte) (c : Nat) : (s.setFlag f).readByte c = s.readByte c := rfl

@[simp] theorem setI_v (w : Word) : (s.setI w).v = s.v := rfl
@[simp] theorem setI_i (w : Word) : (s.setI w).i = w := rfl
@[simp] theorem setI_pc (w : Word) : (s.setI w).pc = s.pc := rfl
@[simp] theorem setI_sp (w : Word) : (s.setI w).sp = s.sp := rfl
@[simp] theorem setI_stack (w : Word) : (s.setI w).stack = s.stack := rfl
@[simp] theorem setI_dt (w : Word) : (s.setI w).dt = s.dt := rfl
@[simp] theorem setI_st (w : Word) : (s.setI w).st = s.st := rfl
@[simp] theorem setI_mem (w : Word) : (s.setI w).mem = s.mem := rfl
@[simp] theorem setI_fb (w : Word) : (s.setI w).fb = s.fb := rfl
@[simp] theorem setI_keys (w : Word) : (s.setI w).keys = s.keys := rfl
@[simp] theorem setI_params (w : Word) : (s.setI w).params = s.params := rfl
@[simp] theorem setI_draws (w : Word) : (s.setI w).draws = s.draws := rfl
@[simp] theorem setI_reg (w : Word) (q : Reg) : (s.setI w).reg q = s.reg q := rfl
@[simp] theorem setI_slot (w : Word) (q : Fin 16) : (s.setI w).slot q = s.slot q := rfl
@[simp] theorem setI_readByte (w : Word) (c : Nat) : (s.setI w).readByte c = s.readByte c := rfl

@[simp] theorem setPc_v (w : Word) : (s.setPc w).v = s.v := rfl
@[simp] theorem setPc_i (w : Word) : (s.setPc w).i = s.i := rfl
@[simp] theorem setPc_pc (w : Word) : (s.setPc w).pc = w := rfl
@[simp] theorem setPc_sp (w : Word) : (s.setPc w).sp = s.sp := rfl
@[simp] theorem setPc_stack (w : Word) : (s.setPc w).stack = s.stack := rfl
@[simp] theorem setPc_dt (w : Word) : (s.setPc w).dt = s.dt := rfl
@[simp] theorem setPc_st (w : Word) : (s.setPc w).st = s.st := rfl
@[simp] theorem setPc_mem (w : Word) : (s.setPc w).mem = s.mem := rfl
@[simp] theorem setPc_fb (w : Word) : (s.setPc w).fb = s.fb := rfl
@[simp] theorem setPc_keys (w : Word) : (s.setPc w).keys = s.keys := rfl
@[simp] theorem setPc_params (w : Word) : (s.setPc w).params = s.params := rfl
@[simp] theorem setPc_draws (w : Word) : (s.setPc w).draws = s.draws := rfl
@[simp] theorem setPc_reg (w : Word) (q : Reg) : (s.setPc w).reg q = s.reg q := rfl
@[simp] theorem setPc_slot (w : Word) (q : Fin 16) : (s.setPc w).slot q = s.slot q := rfl
@[simp] theorem setPc_readByte (w : Word) (c : Nat) : (s.setPc w).readByte c = s.readByte c := rfl

@[simp] theorem advance_v (k : Word) : (s.advance k).v = s.v := rfl
@[simp] theorem advance_i (k : Word) : (s.advance k).i = s.i := rfl
@[simp] theorem advance_pc (k : Word) : (s.advance k).pc = s.pc + k := rfl
@[simp] theorem advance_sp (k : Word) : (s.advance k).sp = s.sp := rfl
@[simp] theorem advance_stack (k : Word) : (s.advance k).stack = s.stack := rfl
@[simp] theorem advance_dt (k : Word) : (s.advance k).dt = s.dt := rfl
@[simp] theorem advance_st (k : Word) : (s.advance k).st = s.st := rfl
@[simp] theorem advance_mem (k : Word) : (s.advance k).mem = s.mem := rfl
@[simp] theorem advance_fb (k : Word) : (s.advance k).fb = s.fb := rfl
@[simp] theorem advance_keys (k : Word) : (s.advance k).keys = s.keys := rfl
@[simp] theorem advance_params (k : Word) : (s.advance k).params = s.params := rfl
@[simp] theorem advance_draws (k : Word) : (s.advance k).draws = s.draws := rfl
@[simp] theorem advance_reg (k : Word) (q : Reg) : (s.advance k).reg q = s.reg q := rfl
@[simp] theorem advance_slot (k : Word) (q : Fin 16) : (s.advance k).slot q = s.slot q := rfl
@[simp] theorem advance_readByte (k : Word) (c : Nat) : (s.advance k).readByte c = s.readByte c := rfl

@[simp] theorem skipIf_v (c : Bool) : (s.skipIf c).v = s.v := rfl
@[simp] theorem skipIf_i (c : Bool) : (s.skipIf c).i = s.i := rfl
@[simp] theorem skipIf_pc (c : Bool) : (s.skipIf c).pc = s.pc + (if c then 4 else 2) := rfl
@[simp] theorem skipIf_sp (c : Bool) : (s.skipIf c).sp = s.sp := rfl
@[simp] theorem skipIf_stack (c : Bool) : (s.skipIf c).stack = s.stack := rfl
@[simp] theorem skipIf_dt (c : Bool) : (s.skipIf c).dt = s.dt := rfl
@[simp] theorem skipIf_st (c : Bool) : (s.skipIf c).st = s.st := rfl
@[simp] theorem skipIf_mem (c : Bool) : (s.skipIf c).mem = s.mem := rfl
@[simp] theorem skipIf_fb (c : Bool) : (s.skipIf c).fb = s.fb := rfl
@[simp] theorem skipIf_keys (c : Bool) : (s.skipIf c).keys = s.keys := rfl
@[simp] theorem skipIf_params (c : Bool) : (s.skipIf c).params = s.params := rfl
@[simp] theorem skipIf_draws (c : Bool) : (s.skipIf c).draws = s.draws := rfl
@[simp] theorem skipIf_reg (c : Bool) (q : Reg) : (s.skipIf c).reg q = s.reg q := rfl
@[simp] theorem skipIf_slot (c : Bool) (q : Fin 16) : (s.skipIf c).slot q = s.slot q := rfl
@[simp] theorem skipIf_readByte (c : Bool) (d : Nat) : (s.skipIf c).readByte d = s.readByte d := rfl

@[simp] theorem setDt_v (b : Byte) : (s.setDt b).v = s.v := rfl
@[simp] theorem setDt_i (b : Byte) : (s.setDt b).i = s.i := rfl
@[simp] theorem setDt_pc (b : Byte) : (s.setDt b).pc = s.pc := rfl
@[simp] theorem setDt_sp (b : Byte) : (s.setDt b).sp = s.sp := rfl
@[simp] theorem setDt_stack (b : Byte) : (s.setDt b).stack = s.stack := rfl
@[simp] theorem setDt_dt (b : Byte) : (s.setDt b).dt = b := rfl
@[simp] theorem setDt_st (b : Byte) : (s.setDt b).st = s.st := rfl
@[simp] theorem setDt_mem (b : Byte) : (s.setDt b).mem = s.mem := rfl
@[simp] theorem setDt_fb (b : Byte) : (s.setDt b).fb = s.fb := rfl
@[simp] theorem setDt_keys (b : Byte) : (s.setDt b).keys = s.keys := rfl
@[simp] theorem setDt_params (b : Byte) : (s.setDt b).params = s.params := rfl
@[simp] theorem setDt_draws (b : Byte) : (s.setDt b).draws = s.draws := rfl
@[simp] theorem setDt_reg (b : Byte) (q : Reg) : (s.setDt b).reg q = s.reg q := rfl
@[simp] theorem setDt_slot (b : Byte) (q : Fin 16) : (s.setDt b).slot q = s.slot q := rfl
@[simp] theorem setDt_readByte (b : Byte) (c : Nat) : (s.setDt b).readByte c = s.readByte c := rfl

@[simp] theorem setSt_v (b : Byte) : (s.setSt b).v = s.v := rfl
@[simp] theorem setSt_i (b : Byte) : (s.setSt b).i = s.i := rfl
@[simp] theorem setSt_pc (b : Byte) : (s.setSt b).pc = s.pc := rfl
@[simp] theorem setSt_sp (b : Byte) : (s.setSt b).sp = s.sp := rfl
@[simp] theorem setSt_stack (b : Byte) : (s.setSt b).stack = s.stack := rfl
@[simp] theorem setSt_dt (b : Byte) : (s.setSt b).dt = s.dt := rfl
@[simp] theorem setSt_st (b : Byte) : (s.setSt b).st = b := rfl
@[simp] theorem setSt_mem (b : Byte) : (s.setSt b).mem = s.mem := rfl
@[simp] theorem setSt_fb (b : Byte) : (s.setSt b).fb = s.fb := rfl
@[simp] theorem setSt_keys (b : Byte) : (s.setSt b).keys = s.keys := rfl
@[simp] theorem setSt_params (b : Byte) : (s.setSt b).params = s.params := rfl
@[simp] theorem setSt_draws (b : Byte) : (s.setSt b).draws = s.draws := rfl
@[simp] theorem setSt_reg (b : Byte) (q : Reg) : (s.setSt b).reg q = s.reg q := rfl
@[simp] theorem setSt_slot (b : Byte) (q : Fin 16) : (s.setSt b).slot q = s.slot q := rfl
@[simp] theorem setSt_readByte (b : Byte) (c : Nat) : (s.setSt b).readByte c = s.readByte c := rfl

@[simp] theorem writeByte_v (a : Nat) (b : Byte) : (s.writeByte a b).v = s.v := rfl
@[simp] theorem writeByte_i (a : Nat) (b : Byte) : (s.writeByte a b).i = s.i := rfl
@[simp] theorem writeByte_pc (a : Nat) (b : Byte) : (s.writeByte a b).pc = s.pc := rfl
@[simp] theorem writeByte_sp (a : Nat) (b : Byte) : (s.writeByte a b).sp = s.sp := rfl
@[simp] theorem writeByte_stack (a : Nat) (b : Byte) : (s.writeByte a b).stack = s.stack := rfl
@[simp] theorem writeByte_dt (a : Nat) (b : Byte) : (s.writeByte a b).dt = s.dt := rfl
@[simp] theorem writeByte_st (a : Nat) (b : Byte) : (s.writeByte a b).st = s.st := rfl
@[simp] theorem writeByte_mem (a : Nat) (b : Byte) : (s.writeByte a b).mem = Memory.write s.params.font s.mem a b := rfl
@[simp] theorem writeByte_fb (a : Nat) (b : Byte) : (s.writeByte a b).fb = s.fb := rfl
@[simp] theorem writeByte_keys (a : Nat) (b : Byte) : (s.writeByte a b).keys = s.keys := rfl
@[simp] theorem writeByte_params (a : Nat) (b : Byte) : (s.writeByte a b).params = s.params := rfl
@[simp] theorem writeByte_draws (a : Nat) (b : Byte) : (s.writeByte a b).draws = s.draws := rfl
@[simp] theorem writeByte_reg (a : Nat) (b : Byte) (q : Reg) : (s.writeByte a b).reg q = s.reg q := rfl
@[simp] theorem writeByte_slot (a : Nat) (b : Byte) (q : Fin 16) : (s.writeByte a b).slot q = s.slot q := rfl

@[simp] theorem setSlot_v (j : Fin 16) (w : Word) : (s.setSlot j w).v = s.v := rfl
@[simp] theorem setSlot_i (j : Fin 16) (w : Word) : (s.setSlot j w).i = s.i := rfl
@[simp] theorem setSlot_pc (j : Fin 16) (w : Word) : (s.setSlot j w).pc = s.pc := rfl
@[simp] theorem setSlot_sp (j : Fin 16) (w : Word) : (s.setSlot j w).sp = s.sp := rfl
@[simp] theorem setSlot_stack (j : Fin 16) (w : Word) : (s.setSlot j w).stack = s.stack.set j.val w j.isLt := rfl
@[simp] theorem setSlot_dt (j : Fin 16) (w : Word) : (s.setSlot j w).dt = s.dt := rfl
@[simp] theorem setSlot_st (j : Fin 16) (w : Word) : (s.setSlot j w).st = s.st := rfl
@[simp] theorem setSlot_mem (j : Fin 16) (w : Word) : (s.setSlot j w).mem = s.mem := rfl
@[simp] theorem setSlot_fb (j : Fin 16) (w : Word) : (s.setSlot j w).fb = s.fb := rfl
@[simp] theorem setSlot_keys (j : Fin 16) (w : Word) : (s.setSlot j w).keys = s.keys := rfl
@[simp] theorem setSlot_params (j : Fin 16) (w : Word) : (s.setSlot j w).params = s.params := rfl
@[simp] theorem setSlot_draws (j : Fin 16) (w : Word) : (s.setSlot j w).draws = s.draws := rfl
@[simp] theorem setSlot_reg (j : Fin 16) (w : Word) (q : Reg) : (s.setSlot j w).reg q = s.reg q := rfl
@[simp] theorem setSlot_readByte (j : Fin 16) (w : Word) (c : Nat) : (s.setSlot j w).readByte c = s.readByte c := rfl

@[simp] theorem setSp_v (k : Fin 17) : (s.setSp k).v = s.v := rfl
@[simp] theorem setSp_i (k : Fin 17) : (s.setSp k).i = s.i := rfl
@[simp] theorem setSp_pc (k : Fin 17) : (s.setSp k).pc = s.pc := rfl
@[simp] theorem setSp_sp (k : Fin 17) : (s.setSp k).sp = k := rfl
@[simp] theorem setSp_stack (k : Fin 17) : (s.setSp k).stack = s.stack := rfl
@[simp] theorem setSp_dt (k : Fin 17) : (s.setSp k).dt = s.dt := rfl
@[simp] theorem setSp_st (k : Fin 17) : (s.setSp k).st = s.st := rfl
@[simp] theorem setSp_mem (k : Fin 17) : (s.setSp k).mem = s.mem := rfl
@[simp] theorem setSp_fb (k : Fin 17) : (s.setSp k).fb = s.fb := rfl
@[simp] theorem setSp_keys (k : Fin 17) : (s.setSp k).keys = s.keys := rfl
@[simp] theorem setSp_params (k : Fin 17) : (s.setSp k).params = s.params := rfl
@[simp] theorem setSp_draws (k : Fin 17) : (s.setSp k).draws = s.draws := rfl
@[simp] theorem setSp_reg (k : Fin 17) (q : Reg) : (s.setSp k).reg q = s.reg q := rfl
@[simp] theorem setSp_slot (k : Fin 17) (q : Fin 16) : (s.setSp k).slot q = s.slot q := rfl
@[simp] theorem setSp_readByte (k : Fin 17) (c : Nat) : (s.setSp k).readByte c = s.readByte c := rfl

@[simp] theorem setFb_v (fb : Framebuffer) : (s.setFb fb).v = s.v := rfl
@[simp] theorem setFb_i (fb : Framebuffer) : (s.setFb fb).i = s.i := rfl
@[simp] theorem setFb_pc (fb : Framebuffer) : (s.setFb fb).pc = s.pc := rfl
@[simp] theorem setFb_sp (fb : Framebuffer) : (s.setFb fb).sp = s.sp := rfl
@[simp] theorem setFb_stack (fb : Framebuffer) : (s.setFb fb).stack = s.stack := rfl
@[simp] theorem setFb_dt (fb : Framebuffer) : (s.setFb fb).dt = s.dt := rfl
@[simp] theorem setFb_st (fb : Framebuffer) : (s.setFb fb).st = s.st := rfl
@[simp] theorem setFb_mem (fb : Framebuffer) : (s.setFb fb).mem = s.mem := rfl
@[simp] theorem setFb_fb (fb : Framebuffer) : (s.setFb fb).fb = fb := rfl
@[simp] theorem setFb_keys (fb : Framebuffer) : (s.setFb fb).keys = s.keys := rfl
@[simp] theorem setFb_params (fb : Framebuffer) : (s.setFb fb).params = s.params := rfl
@[simp] theorem setFb_draws (fb : Framebuffer) : (s.setFb fb).draws = s.draws := rfl
@[simp] theorem setFb_reg (fb : Framebuffer) (q : Reg) : (s.setFb fb).reg q = s.reg q := rfl
@[simp] theorem setFb_slot (fb : Framebuffer) (q : Fin 16) : (s.setFb fb).slot q = s.slot q := rfl
@[simp] theorem setFb_readByte (fb : Framebuffer) (c : Nat) : (s.setFb fb).readByte c = s.readByte c := rfl

@[simp] theorem setKeys_v (k : Vector Bool 16) : (s.setKeys k).v = s.v := rfl
@[simp] theorem setKeys_i (k : Vector Bool 16) : (s.setKeys k).i = s.i := rfl
@[simp] theorem setKeys_pc (k : Vector Bool 16) : (s.setKeys k).pc = s.pc := rfl
@[simp] theorem setKeys_sp (k : Vector Bool 16) : (s.setKeys k).sp = s.sp := rfl
@[simp] theorem setKeys_stack (k : Vector Bool 16) : (s.setKeys k).stack = s.stack := rfl
@[simp] theorem setKeys_dt (k : Vector Bool 16) : (s.setKeys k).dt = s.dt := rfl
@[simp] theorem setKeys_st (k : Vector Bool 16) : (s.setKeys k).st = s.st := rfl
@[simp] theorem setKeys_mem (k : Vector Bool 16) : (s.setKeys k).mem = s.mem := rfl
@[simp] theorem setKeys_fb (k : Vector Bool 16) : (s.setKeys k).fb = s.fb := rfl
@[simp] theorem setKeys_keys (k : Vector Bool 16) : (s.setKeys k).keys = k := rfl
@[simp] theorem setKeys_params (k : Vector Bool 16) : (s.setKeys k).params = s.params := rfl
@[simp] theorem setKeys_draws (k : Vector Bool 16) : (s.setKeys k).draws = s.draws := rfl
@[simp] theorem setKeys_reg (k : Vector Bool 16) (q : Reg) : (s.setKeys k).reg q = s.reg q := rfl
@[simp] theorem setKeys_slot (k : Vector Bool 16) (q : Fin 16) : (s.setKeys k).slot q = s.slot q := rfl
@[simp] theorem setKeys_readByte (k : Vector Bool 16) (c : Nat) : (s.setKeys k).readByte c = s.readByte c := rfl

@[simp] theorem drawRnd_v : (s.drawRnd.2).v = s.v := rfl
@[simp] theorem drawRnd_i : (s.drawRnd.2).i = s.i := rfl
@[simp] theorem drawRnd_pc : (s.drawRnd.2).pc = s.pc := rfl
@[simp] theorem drawRnd_sp : (s.drawRnd.2).sp = s.sp := rfl
@[simp] theorem drawRnd_stack : (s.drawRnd.2).stack = s.stack := rfl
@[simp] theorem drawRnd_dt : (s.drawRnd.2).dt = s.dt := rfl
@[simp] theorem drawRnd_st : (s.drawRnd.2).st = s.st := rfl
@[simp] theorem drawRnd_mem : (s.drawRnd.2).mem = s.mem := rfl
@[simp] theorem drawRnd_fb : (s.drawRnd.2).fb = s.fb := rfl
@[simp] theorem drawRnd_keys : (s.drawRnd.2).keys = s.keys := rfl
@[simp] theorem drawRnd_params : (s.drawRnd.2).params = s.params := rfl
@[simp] theorem drawRnd_draws : (s.drawRnd.2).draws = s.draws + 1 := rfl
@[simp] theorem drawRnd_reg (q : Reg) : (s.drawRnd.2).reg q = s.reg q := rfl
@[simp] theorem drawRnd_slot (q : Fin 16) : (s.drawRnd.2).slot q = s.slot q := rfl
@[simp] theorem drawRnd_readByte (c : Nat) : (s.drawRnd.2).readByte c = s.readByte c := rfl

/-! ### The accessor that an update changes -/

/-- V[q] after a write of V[r]. -/
@[simp] theorem setReg_reg (r q : Reg) (b : Byte) :
    (s.setReg r b).reg q = if q = r then b else s.reg q := by
  simp only [State.setReg, State.reg, Vector.getElem_set, Fin.ext_iff]
  exact if_congr eq_comm rfl rfl

/-- V[q] after a write of the flag. -/
@[simp] theorem setFlag_reg (q : Reg) (f : Byte) :
    (s.setFlag f).reg q = if q = vF then f else s.reg q := setReg_reg s vF q f

/-- S[q] after a write of S[j]. -/
@[simp] theorem setSlot_slot (j q : Fin 16) (w : Word) :
    (s.setSlot j w).slot q = if q = j then w else s.slot q := by
  simp only [State.setSlot, State.slot, Vector.getElem_set, Fin.ext_iff]
  exact if_congr eq_comm rfl rfl

/-- The random byte drawn. -/
@[simp] theorem drawRnd_byte : s.drawRnd.1 = Config.rnd s.draws := rfl

/-- A completed step advances pc by 2. -/
@[simp] theorem done_eq : s.done = .next (s.advance 2) := rfl

end Sys2Proof.Machine
end

