-- ==== Sys2Proof/Laws/Memory.lean ====
section
/-! SUPPORT. Memory: read after write, the canonical form, and lists of bytes. -/

namespace Sys2Proof.Machine

variable {font : Vector Byte fontSize} {m : Memory} {a c : Nat} {b : Byte}

/-- The canonical form of a list is that of its tail, with the first entry below and different from reset. -/
theorem Memory.wf_cons {p : Host.Cell} :
    Memory.wf font (p :: m) ↔
      ((∀ q ∈ m, p.1 < q.1) ∧ p.1 < memSize ∧ p.2 ≠ resetByte font p.1) ∧ Memory.wf font m := by
  simp only [Memory.wf, List.pairwise_cons, List.forall_mem_cons]
  tauto

/-- Reset memory lists nothing and is in canonical form. -/
theorem Memory.wf_nil : Memory.wf font [] := by simp [Memory.wf]

/-- An address below every entry reads as reset left it. -/
theorem Memory.read_below (h : ∀ q ∈ m, a < q.1) : Memory.read font m a = resetByte font a := by
  induction m with
  | nil => rfl
  | cons p m ih =>
    rw [List.forall_mem_cons] at h
    rw [Memory.read, if_neg (by omega), ih h.2]

/-- A write leaves every other address alone, whatever the list. -/
theorem Memory.read_write_other (h : c ≠ a) :
    Memory.read font (Memory.write font m a b) c = Memory.read font m c := by
  induction m with
  | nil => by_cases hb : b = resetByte font a <;> simp [Memory.write, Memory.read, hb, h]
  | cons p m ih =>
    rw [Memory.write]
    by_cases hb : b = resetByte font a <;> split_ifs <;> simp_all [Memory.read]

/-- A write to canonical memory is read back. -/
theorem Memory.read_write_same (hm : Memory.wf font m) :
    Memory.read font (Memory.write font m a b) a = b := by
  induction m with
  | nil => by_cases hb : b = resetByte font a <;> simp [Memory.write, Memory.read, hb]
  | cons p m ih =>
    obtain ⟨⟨hlt, -, -⟩, hwf⟩ := Memory.wf_cons.1 hm
    rw [Memory.write]
    split_ifs with h1 h2 h3 h4
    · rw [h2]
      refine Memory.read_below ?_
      rw [List.forall_mem_cons]
      exact ⟨h1, fun q hq => lt_trans h1 (hlt q hq)⟩
    · simp [Memory.read]
    · rw [h4, h3]
      exact Memory.read_below hlt
    · simp [Memory.read]
    · rw [Memory.read, if_neg h3, ih hwf]

/-- The entries of a written list: the new one, or old ones. -/
theorem Memory.mem_write {q : Host.Cell} (h : q ∈ Memory.write font m a b) :
    (q = (a, b) ∧ b ≠ resetByte font a) ∨ q ∈ m := by
  induction m with
  | nil =>
    rw [Memory.write] at h
    split_ifs at h with hb
    · simp at h
    · exact .inl ⟨by simpa using h, hb⟩
  | cons p m ih =>
    rw [Memory.write] at h
    split_ifs at h with h1 h2 h3 h4
    · exact .inr h
    · rcases List.mem_cons.1 h with rfl | h
      · exact .inl ⟨rfl, h2⟩
      · exact .inr h
    · exact .inr (List.mem_cons_of_mem _ h)
    · rcases List.mem_cons.1 h with rfl | h
      · exact .inl ⟨rfl, h4⟩
      · exact .inr (List.mem_cons_of_mem _ h)
    · rcases List.mem_cons.1 h with rfl | h
      · exact .inr List.mem_cons_self
      · exact (ih h).imp id (List.mem_cons_of_mem _)

/-- A write keeps the canonical form. -/
theorem Memory.wf_write (hm : Memory.wf font m) (ha : a < memSize) :
    Memory.wf font (Memory.write font m a b) := by
  induction m with
  | nil =>
    rw [Memory.write]
    split_ifs with hb
    · exact hm
    · exact Memory.wf_cons.2 ⟨⟨by simp, ha, hb⟩, Memory.wf_nil⟩
  | cons p m ih =>
    obtain ⟨⟨hlt, hp, hne⟩, hwf⟩ := Memory.wf_cons.1 hm
    rw [Memory.write]
    split_ifs with h1 h2 h3 h4
    · exact hm
    · refine Memory.wf_cons.2 ⟨⟨?_, ha, h2⟩, hm⟩
      rw [List.forall_mem_cons]
      exact ⟨h1, fun q hq => lt_trans h1 (hlt q hq)⟩
    · exact hwf
    · exact Memory.wf_cons.2 ⟨⟨fun q hq => h3 ▸ hlt q hq, ha, h4⟩, hwf⟩
    · refine Memory.wf_cons.2 ⟨⟨fun q hq => ?_, hp, hne⟩, ih hwf⟩
      rcases Memory.mem_write hq with ⟨rfl, -⟩ | hq
      · show p.1 < a
        omega
      · exact hlt q hq

/-! ### The state's memory -/

variable {s : State}

/-- A written byte is read back. -/
theorem readByte_writeByte_same (h : Memory.wf s.params.font s.mem) : (s.writeByte a b).readByte a = b :=
  Memory.read_write_same h

/-- Other bytes are as before. -/
theorem readByte_writeByte_other (h : c ≠ a) : (s.writeByte a b).readByte c = s.readByte c :=
  Memory.read_write_other h

/-- Storing bytes changes only memory: any field that writing a byte keeps is kept. -/
theorem storeBytes_keeps {α : Sort*} (f : State → α) (hf : ∀ (s : State) a b, f (s.writeByte a b) = f s)
    (bs : List Byte) : f (s.storeBytes a bs) = f s := by
  induction bs generalizing s a with
  | nil => rfl
  | cons b bs ih => rw [State.storeBytes, ih, hf]

@[simp] theorem storeBytes_v (bs : List Byte) : (s.storeBytes a bs).v = s.v :=
  storeBytes_keeps State.v (fun _ _ _ => rfl) bs
@[simp] theorem storeBytes_i (bs : List Byte) : (s.storeBytes a bs).i = s.i :=
  storeBytes_keeps State.i (fun _ _ _ => rfl) bs
@[simp] theorem storeBytes_pc (bs : List Byte) : (s.storeBytes a bs).pc = s.pc :=
  storeBytes_keeps State.pc (fun _ _ _ => rfl) bs
@[simp] theorem storeBytes_sp (bs : List Byte) : (s.storeBytes a bs).sp = s.sp :=
  storeBytes_keeps State.sp (fun _ _ _ => rfl) bs
@[simp] theorem storeBytes_stack (bs : List Byte) : (s.storeBytes a bs).stack = s.stack :=
  storeBytes_keeps State.stack (fun _ _ _ => rfl) bs
@[simp] theorem storeBytes_dt (bs : List Byte) : (s.storeBytes a bs).dt = s.dt :=
  storeBytes_keeps State.dt (fun _ _ _ => rfl) bs
@[simp] theorem storeBytes_st (bs : List Byte) : (s.storeBytes a bs).st = s.st :=
  storeBytes_keeps State.st (fun _ _ _ => rfl) bs
@[simp] theorem storeBytes_fb (bs : List Byte) : (s.storeBytes a bs).fb = s.fb :=
  storeBytes_keeps State.fb (fun _ _ _ => rfl) bs
@[simp] theorem storeBytes_keys (bs : List Byte) : (s.storeBytes a bs).keys = s.keys :=
  storeBytes_keeps State.keys (fun _ _ _ => rfl) bs
@[simp] theorem storeBytes_params (bs : List Byte) : (s.storeBytes a bs).params = s.params :=
  storeBytes_keeps State.params (fun _ _ _ => rfl) bs
@[simp] theorem storeBytes_draws (bs : List Byte) : (s.storeBytes a bs).draws = s.draws :=
  storeBytes_keeps State.draws (fun _ _ _ => rfl) bs
@[simp] theorem storeBytes_reg (bs : List Byte) (q : Reg) : (s.storeBytes a bs).reg q = s.reg q :=
  storeBytes_keeps (fun s => s.reg q) (fun _ _ _ => rfl) bs
@[simp] theorem storeBytes_slot (bs : List Byte) (q : Fin 16) : (s.storeBytes a bs).slot q = s.slot q :=
  storeBytes_keeps (fun s => s.slot q) (fun _ _ _ => rfl) bs

/-- Bytes outside the stored ones are as before. -/
theorem readByte_storeBytes_other {bs : List Byte} (h : c < a ∨ a + bs.length ≤ c) :
    (s.storeBytes a bs).readByte c = s.readByte c := by
  induction bs generalizing s a with
  | nil => rfl
  | cons b bs ih =>
    simp only [List.length_cons] at h
    rw [State.storeBytes, ih (by omega), readByte_writeByte_other (by omega)]

/-- Storing bytes inside memory keeps the canonical form. -/
theorem wf_storeBytes {bs : List Byte} (hm : Memory.wf s.params.font s.mem) (h : a + bs.length ≤ memSize) :
    Memory.wf s.params.font (s.storeBytes a bs).mem := by
  induction bs generalizing s a with
  | nil => exact hm
  | cons b bs ih =>
    simp only [List.length_cons] at h
    exact ih (s := s.writeByte a b) (Memory.wf_write hm (by omega)) (by omega)

/-- Stored bytes are read back. -/
theorem readByte_storeBytes_same {bs : List Byte} (hm : Memory.wf s.params.font s.mem)
    (h : a + bs.length ≤ memSize) {k : Nat} (hk : k < bs.length) :
    (s.storeBytes a bs).readByte (a + k) = bs[k] := by
  induction bs generalizing s a k with
  | nil => simp at hk
  | cons b bs ih =>
    simp only [List.length_cons] at h hk
    rw [State.storeBytes]
    cases k with
    | zero =>
      rw [readByte_storeBytes_other (by omega)]
      simpa using readByte_writeByte_same hm
    | succ k =>
      have := ih (s := s.writeByte a b) (a := a + 1) (k := k) (Memory.wf_write hm (by omega)) (by omega) (by omega)
      simpa [Nat.add_assoc, Nat.add_comm 1 k] using this

end Sys2Proof.Machine
end

