-- ==== Sys2Proof/Laws/Operations.lean ====
section
/-! SUPPORT. What each shared operation can do: fetch, the data range check, the key select, and the register moves of
Fx55 and Fx65. -/

namespace Sys2Proof.Machine

variable {s : State}

/-! ### Fetch (R51) -/

/-- A fetch that succeeds. -/
theorem fetchWord_ok (h : s.pc.toNat + 1 ≤ 0xFFF) :
    fetchWord s = .ok (joinBytes (s.readByte s.pc.toNat) (s.readByte (s.pc.toNat + 1))) := if_pos h

/-- A fetch that faults. -/
theorem fetchWord_error (h : ¬ s.pc.toNat + 1 ≤ 0xFFF) : fetchWord s = .error (.fetchRange s.pc.toNat) := if_neg h

/-- A step that completes fetched inside memory, and was an instruction or an undefined word. -/
theorem step_cases {t : State} (h : step s = .next t) :
    s.pc.toNat + 1 ≤ 0xFFF ∧
      ((∃ w e, fetchWord s = .ok w ∧ decodeWord w = .error e ∧ t = s.advance 2) ∨
       ∃ w i, fetchWord s = .ok w ∧ decodeWord w = .ok i ∧ exec i s = .next t) := by
  by_cases hp : s.pc.toNat + 1 ≤ 0xFFF
  · refine ⟨hp, ?_⟩
    obtain ⟨w, hw⟩ : ∃ w, fetchWord s = .ok w := ⟨_, fetchWord_ok hp⟩
    cases hd : decodeWord w with
    | error e => exact .inl ⟨w, e, hw, hd, by simpa [step, hw, hd, execUnknown] using h.symm⟩
    | ok i => exact .inr ⟨w, i, hw, hd, by simpa [step, hw, hd] using h⟩
  · simp [step, fetchWord_error hp, raise] at h

/-! ### The data range check (R52) -/

/-- No address is out of range exactly when the last one is in range. -/
theorem firstOutOfRange_none {base len : Nat} :
    firstOutOfRange base len = none ↔ len = 0 ∨ base + len ≤ 0x1000 := by
  induction len generalizing base with
  | zero => simp [firstOutOfRange]
  | succ len ih =>
    rw [firstOutOfRange]
    split_ifs with h
    · rw [ih, false_or]; omega
    · rw [false_or]; simp only [false_iff]; omega

/-- The first address out of range is the base, or 0x1000. -/
theorem firstOutOfRange_some {base len : Nat} (hl : len ≠ 0) (h : 0x1000 < base + len) :
    firstOutOfRange base len = some (max base 0x1000) := by
  induction len generalizing base with
  | zero => exact absurd rfl hl
  | succ len ih =>
    rw [firstOutOfRange]
    split_ifs with hb
    · by_cases h0 : len = 0
      · omega
      · rw [ih h0 (by omega)]; congr 1; omega
    · congr 1; omega

/-- An instruction whose addresses are in range runs. -/
theorem withDataRange_ok {base len : Nat} {k : Result State} (h : len = 0 ∨ base + len ≤ 0x1000) :
    withDataRange base len k = k := by
  rw [withDataRange, firstOutOfRange_none.2 h]

/-- An instruction with an address out of range faults. -/
theorem withDataRange_fault {base len : Nat} {k : Result State} (hl : len ≠ 0) (h : 0x1000 < base + len) :
    withDataRange base len k = .fault (.dataRange (max base 0x1000)) := by
  rw [withDataRange, firstOutOfRange_some hl h]; rfl

/-- A range check either passes, with every address in range, or faults. -/
theorem withDataRange_cases (base len : Nat) (k : Result State) :
    ((len = 0 ∨ base + len ≤ 0x1000) ∧ withDataRange base len k = k) ∨
    (len ≠ 0 ∧ 0x1000 < base + len ∧ withDataRange base len k = .fault (.dataRange (max base 0x1000))) := by
  by_cases h : len = 0 ∨ base + len ≤ 0x1000
  · exact .inl ⟨h, withDataRange_ok h⟩
  · push Not at h
    exact .inr ⟨h.1, h.2, withDataRange_fault h.1 h.2⟩

/-! ### Keys (R170, R173) -/

/-- A key select in range. -/
theorem withKey_ok {b : Byte} {k : Bool → Result State} (j : Fin 16) (h : b.toNat = j.val) :
    withKey s b k = k s.keys[j.val] := by
  simp [withKey, h, Nat.le_of_lt_succ j.isLt]

/-- A key select out of range. -/
theorem withKey_fault {b : Byte} {k : Bool → Result State} (h : 0xF < b.toNat) :
    withKey s b k = .fault (.keyRange b.toNat) := by
  rw [withKey, dif_neg (by omega)]; rfl

/-- A key select either finds a key or faults. -/
theorem withKey_cases (s : State) (b : Byte) (k : Bool → Result State) :
    (∃ j : Fin 16, b.toNat = j.val ∧ withKey s b k = k s.keys[j.val]) ∨
    (0xF < b.toNat ∧ withKey s b k = .fault (.keyRange b.toNat)) := by
  by_cases h : b.toNat ≤ 0xF
  · exact .inl ⟨⟨b.toNat, by omega⟩, rfl, withKey_ok ⟨b.toNat, by omega⟩ rfl⟩
  · exact .inr ⟨by omega, withKey_fault (by omega)⟩

/-- The lowest held key. -/
theorem firstHeldKey_some {k : Fin 16} :
    s.firstHeldKey = some k ↔ s.keys[k.val] = true ∧ ∀ j : Fin 16, j < k → s.keys[j.val] = false := by
  simp only [State.firstHeldKey, List.find?_eq_some_iff_getElem, List.length_finRange, List.getElem_finRange]
  constructor
  · rintro ⟨h, i, hi, rfl, hlt⟩
    exact ⟨h, fun j hj => by simpa using hlt j.val hj⟩
  · rintro ⟨h, hlt⟩
    exact ⟨h, k.val, k.isLt, rfl, fun j hj => by simpa using hlt ⟨j, by omega⟩ hj⟩

/-- No key held. -/
theorem firstHeldKey_none : s.firstHeldKey = none ↔ ∀ k : Fin 16, s.keys[k.val] = false := by
  simp [State.firstHeldKey, List.find?_eq_none]

/-! ### Lists of registers (R144, R145) -/

/-- The registers up to x. -/
theorem mem_regsUpTo {x r : Reg} : r ∈ regsUpTo x ↔ r ≤ x := by
  simp only [regsUpTo, List.mem_take_iff_getElem, List.length_finRange, List.getElem_finRange]
  constructor
  · rintro ⟨i, hi, rfl⟩
    simp only [Fin.le_def, Fin.val_cast]; omega
  · intro h
    exact ⟨r.val, by simp only [Fin.le_def] at h; omega, rfl⟩

@[simp] theorem length_regBytes (x : Reg) : (s.regBytes x).length = x.val + 1 := by
  simp [State.regBytes, regsUpTo]

/-- Byte r of the registers' bytes is V[r]. -/
theorem getElem_regBytes (x r : Reg) (h : r.val < (s.regBytes x).length) : (s.regBytes x)[r.val] = s.reg r := by
  simp [State.regBytes, regsUpTo]

/-- Loading a list of registers: those listed take their byte, the others are kept. -/
theorem foldl_setReg_reg (f : Reg → Byte) (l : List Reg) (t : State) (q : Reg) :
    (l.foldl (fun t r => t.setReg r (f r)) t).reg q = if q ∈ l then f q else t.reg q := by
  induction l generalizing t with
  | nil => rfl
  | cons r l ih =>
    rw [List.foldl_cons, ih, setReg_reg]
    by_cases h : q ∈ l
    · simp [h]
    · by_cases h' : q = r <;> simp [h, h']

/-- Loading registers changes only V. -/
theorem foldl_setReg_keeps {α : Sort*} (g : State → α) (hg : ∀ (s : State) r b, g (s.setReg r b) = g s)
    (f : Reg → Byte) (l : List Reg) (t : State) : g (l.foldl (fun t r => t.setReg r (f r)) t) = g t := by
  induction l generalizing t with
  | nil => rfl
  | cons r l ih => rw [List.foldl_cons, ih, hg]

/-- Fx65: the registers up to x take the bytes from address a on. -/
@[simp] theorem loadRegs_reg (a : Nat) (x q : Reg) :
    (s.loadRegs a x).reg q = if q ≤ x then s.readByte (a + q.val) else s.reg q := by
  rw [State.loadRegs, foldl_setReg_reg (fun r => s.readByte (a + r.val))]
  simp only [mem_regsUpTo]

/-- Fx65 changes only V. -/
theorem loadRegs_keeps {α : Sort*} (g : State → α) (hg : ∀ (s : State) r b, g (s.setReg r b) = g s)
    (a : Nat) (x : Reg) : g (s.loadRegs a x) = g s := foldl_setReg_keeps g hg _ _ _

@[simp] theorem loadRegs_i (a : Nat) (x : Reg) : (s.loadRegs a x).i = s.i :=
  loadRegs_keeps State.i (fun _ _ _ => rfl) a x
@[simp] theorem loadRegs_pc (a : Nat) (x : Reg) : (s.loadRegs a x).pc = s.pc :=
  loadRegs_keeps State.pc (fun _ _ _ => rfl) a x
@[simp] theorem loadRegs_sp (a : Nat) (x : Reg) : (s.loadRegs a x).sp = s.sp :=
  loadRegs_keeps State.sp (fun _ _ _ => rfl) a x
@[simp] theorem loadRegs_stack (a : Nat) (x : Reg) : (s.loadRegs a x).stack = s.stack :=
  loadRegs_keeps State.stack (fun _ _ _ => rfl) a x
@[simp] theorem loadRegs_dt (a : Nat) (x : Reg) : (s.loadRegs a x).dt = s.dt :=
  loadRegs_keeps State.dt (fun _ _ _ => rfl) a x
@[simp] theorem loadRegs_st (a : Nat) (x : Reg) : (s.loadRegs a x).st = s.st :=
  loadRegs_keeps State.st (fun _ _ _ => rfl) a x
@[simp] theorem loadRegs_mem (a : Nat) (x : Reg) : (s.loadRegs a x).mem = s.mem :=
  loadRegs_keeps State.mem (fun _ _ _ => rfl) a x
@[simp] theorem loadRegs_fb (a : Nat) (x : Reg) : (s.loadRegs a x).fb = s.fb :=
  loadRegs_keeps State.fb (fun _ _ _ => rfl) a x
@[simp] theorem loadRegs_keys (a : Nat) (x : Reg) : (s.loadRegs a x).keys = s.keys :=
  loadRegs_keeps State.keys (fun _ _ _ => rfl) a x
@[simp] theorem loadRegs_params (a : Nat) (x : Reg) : (s.loadRegs a x).params = s.params :=
  loadRegs_keeps State.params (fun _ _ _ => rfl) a x
@[simp] theorem loadRegs_draws (a : Nat) (x : Reg) : (s.loadRegs a x).draws = s.draws :=
  loadRegs_keeps State.draws (fun _ _ _ => rfl) a x
@[simp] theorem loadRegs_slot (a : Nat) (x : Reg) (q : Fin 16) : (s.loadRegs a x).slot q = s.slot q :=
  loadRegs_keeps (fun s => s.slot q) (fun _ _ _ => rfl) a x
@[simp] theorem loadRegs_readByte (a : Nat) (x : Reg) (c : Nat) : (s.loadRegs a x).readByte c = s.readByte c :=
  loadRegs_keeps (fun s => s.readByte c) (fun _ _ _ => rfl) a x

/-! ### Reading a list of bytes -/

@[simp] theorem length_readBytes (a n : Nat) : (s.readBytes a n).length = n := by
  induction n generalizing a with
  | zero => rfl
  | succ n ih => simp [State.readBytes, ih]

/-- Byte k of the bytes from a on. -/
theorem getElem_readBytes (a n k : Nat) (h : k < (s.readBytes a n).length) :
    (s.readBytes a n)[k] = s.readByte (a + k) := by
  induction n generalizing a k with
  | zero => simp at h
  | succ n ih =>
    cases k with
    | zero => rfl
    | succ k =>
      have := ih (a + 1) k (by simpa [State.readBytes] using h)
      simpa [State.readBytes, Nat.add_assoc, Nat.add_comm 1 k] using this

end Sys2Proof.Machine
end

