-- ==== Sys2Proof/Laws/Display.lean ====
section
/-! SUPPORT. What drawing does, free of the order of the cells (43_display.md R162, R163). -/

namespace Sys2Proof.Machine

/-! ### One cell -/

/-- Toggling a cell changes that cell alone. -/
theorem cell_toggle (fb : Framebuffer) (y y' : Fin 32) (x x' : Fin 64) :
    (fb.toggle y x).cell y' x' = if y' = y ∧ x' = x then !fb.cell y x else fb.cell y' x' := by
  simp only [Framebuffer.toggle, Framebuffer.cell, Vector.getElem_set]
  by_cases hy : y' = y
  · subst hy
    by_cases hx : x' = x
    · subst hx
      simp
    · have : ¬ x'.val = x.val := fun h => hx (Fin.ext h)
      simp [hx, this]
  · have : ¬ y.val = y'.val := fun h => hy (Fin.ext h.symm)
    simp [hy, this]

/-- A cleared framebuffer. -/
@[simp] theorem cell_clear (y : Fin 32) (x : Fin 64) : Framebuffer.clear.cell y x = false := by
  simp [Framebuffer.clear, Framebuffer.cell]

/-! ### The effect of drawing as a set of cells -/

/-- The sprite bits 1 land exactly on the cells C: those toggle, the others stay, and the collision is set when one
of them was on. -/
structure Draws (C : Fin 32 → Fin 64 → Prop) (p q : Framebuffer × Bool) : Prop where
  toggled : ∀ y x, C y x → q.1.cell y x = !p.1.cell y x
  kept : ∀ y x, ¬ C y x → q.1.cell y x = p.1.cell y x
  hit : q.2 = true ↔ p.2 = true ∨ ∃ y x, C y x ∧ p.1.cell y x = true

/-- Drawing on no cell. -/
theorem Draws.refl (p : Framebuffer × Bool) : Draws (fun _ _ => False) p p :=
  ⟨fun _ _ h => h.elim, fun _ _ _ => rfl, by simp⟩

/-- Drawing on one set of cells and then on a disjoint one. -/
theorem Draws.comp {C D E : Fin 32 → Fin 64 → Prop} {p q r : Framebuffer × Bool} (h : Draws C p q)
    (h' : Draws D q r) (hE : ∀ y x, E y x ↔ C y x ∨ D y x) (hd : ∀ y x, C y x → ¬ D y x) : Draws E p r := by
  refine ⟨fun y x he => ?_, fun y x he => ?_, ?_⟩
  · rcases (hE y x).1 he with hc | hD
    · rw [h'.kept y x (hd y x hc), h.toggled y x hc]
    · rw [h'.toggled y x hD, h.kept y x (fun hc => hd y x hc hD)]
  · rw [hE, not_or] at he
    rw [h'.kept y x he.2, h.kept y x he.1]
  · rw [h'.hit, h.hit, or_assoc]
    refine or_congr_right ⟨?_, ?_⟩
    · rintro (⟨y, x, hc, hon⟩ | ⟨y, x, hD, hon⟩)
      · exact ⟨y, x, (hE y x).2 (.inl hc), hon⟩
      · rw [h.kept y x (fun hc => hd y x hc hD)] at hon
        exact ⟨y, x, (hE y x).2 (.inr hD), hon⟩
    · rintro ⟨y, x, he, hon⟩
      rcases (hE y x).1 he with hc | hD
      · exact .inl ⟨y, x, hc, hon⟩
      · refine .inr ⟨y, x, hD, ?_⟩
        rw [h.kept y x (fun hc => hd y x hc hD)]
        exact hon

/-- One sprite bit. -/
theorem draws_drawBit (p : Framebuffer × Bool) (y : Fin 32) (x : Fin 64) (bit : Bool) :
    Draws (fun y' x' => y' = y ∧ x' = x ∧ bit = true) p (drawBit p y x bit) := by
  cases bit with
  | false => simpa [drawBit] using Draws.refl p
  | true =>
    refine ⟨?_, ?_, ?_⟩
    · rintro y' x' ⟨rfl, rfl, -⟩
      simp [drawBit, cell_toggle]
    · intro y' x' h
      simp only [and_true] at h
      simp [drawBit, cell_toggle, h]
    · simp only [drawBit, if_true, Bool.or_eq_true, and_true]
      refine or_congr_right ⟨fun h => ⟨y, x, ⟨rfl, rfl⟩, h⟩, ?_⟩
      rintro ⟨_, _, ⟨rfl, rfl⟩, h⟩
      exact h

/-- The cells of the first k columns of a sprite row. -/
def ColsCover (vx : Byte) (y : Fin 32) (b : Byte) (k : Nat) (y' : Fin 32) (x' : Fin 64) : Prop :=
  y' = y ∧ ∃ col, col < k ∧ spriteX vx col = x' ∧ spriteBit b col = true

/-- The columns of a row land on different cells (R163). -/
theorem spriteX_inj {vx : Byte} {c c' : Nat} (hc : c < 8) (hc' : c' < 8) (h : spriteX vx c = spriteX vx c') :
    c = c' := by
  have := congrArg Fin.val h
  simp only [spriteX] at this
  omega

/-- One sprite row. -/
theorem draws_drawCols (vx : Byte) (y : Fin 32) (b : Byte) (p : Framebuffer × Bool) (k : Nat) (hk : k ≤ 8) :
    Draws (ColsCover vx y b k) p (drawCols vx y b p k) := by
  induction k with
  | zero =>
    have : ColsCover vx y b 0 = fun _ _ => False := by
      funext y' x'; simp [ColsCover]
    rw [this]
    exact Draws.refl p
  | succ k ih =>
    refine (ih (by omega)).comp (draws_drawBit _ y (spriteX vx k) (spriteBit b k)) (fun y' x' => ?_) ?_
    · constructor
      · rintro ⟨rfl, col, hcol, rfl, hbit⟩
        rcases Nat.lt_succ_iff_lt_or_eq.1 hcol with h | rfl
        · exact .inl ⟨rfl, col, h, rfl, hbit⟩
        · exact .inr ⟨rfl, rfl, hbit⟩
      · rintro (⟨rfl, col, hcol, rfl, hbit⟩ | ⟨rfl, rfl, hbit⟩)
        · exact ⟨rfl, col, by omega, rfl, hbit⟩
        · exact ⟨rfl, k, by omega, rfl, hbit⟩
    · rintro y' x' ⟨rfl, col, hcol, rfl, -⟩ ⟨-, h, -⟩
      exact absurd (spriteX_inj (by omega) (by omega) h) (by omega)

/-- The cells of the sprite rows from `row` on. -/
def RowsCover (vx vy : Byte) (row : Nat) (bs : List Byte) (y : Fin 32) (x : Fin 64) : Prop :=
  ∃ k, ∃ h : k < bs.length, ColsCover vx (spriteY vy (row + k)) bs[k] 8 y x

/-- A whole sprite of at most 32 rows: the rows land on different cells (R163). -/
theorem draws_drawRows (vx vy : Byte) (row : Nat) (bs : List Byte) (p : Framebuffer × Bool)
    (hl : bs.length ≤ 32) : Draws (RowsCover vx vy row bs) p (drawRows vx vy row bs p) := by
  induction bs generalizing row p with
  | nil =>
    have : RowsCover vx vy row [] = fun _ _ => False := by
      funext y x; simp [RowsCover]
    rw [this]
    exact Draws.refl p
  | cons b bs ih =>
    simp only [List.length_cons] at hl
    refine (draws_drawCols vx (spriteY vy row) b p 8 le_rfl).comp (ih (row + 1) _ (by omega)) (fun y x => ?_) ?_
    · constructor
      · rintro ⟨k, hk, h⟩
        cases k with
        | zero => exact .inl h
        | succ k =>
          refine .inr ⟨k, by simpa using hk, ?_⟩
          simpa [Nat.add_assoc, Nat.add_comm 1 k] using h
      · rintro (h | ⟨k, hk, h⟩)
        · exact ⟨0, by simp, h⟩
        · refine ⟨k + 1, by simpa using hk, ?_⟩
          simpa [Nat.add_assoc, Nat.add_comm 1 k] using h
    · rintro y x ⟨rfl, -⟩ ⟨k, hk, h, -⟩
      have := congrArg Fin.val h
      simp only [spriteY] at this
      omega

/-- The cells of a sprite in memory, in the words of R163. -/
theorem rowsCover_readBytes {s : State} {vx vy : Byte} {base n : Nat} {y : Fin 32} {x : Fin 64} :
    RowsCover vx vy 0 (s.readBytes base n) y x ↔ SpriteCovers s vx.toNat vy.toNat base n y x := by
  simp only [RowsCover, ColsCover, SpriteCovers, getElem_readBytes, length_readBytes, spriteX, spriteY, spriteBit,
    Nat.zero_add, Fin.ext_iff]
  constructor
  · rintro ⟨k, hk, hy, col, hcol, hx, hbit⟩
    exact ⟨k, col, hk, hcol, hy.symm, hx, hbit⟩
  · rintro ⟨k, col, hk, hcol, hy, hx, hbit⟩
    exact ⟨k, hk, hy.symm, col, hcol, hx, hbit⟩

end Sys2Proof.Machine
end

