-- ==== Sys2Proof/Laws/Encoding.lean ====
section
/-! SUPPORT. Fields, formats and bytes of a word as numbers; the fields of a word built in each format, a word from its
fields, and a word from its bytes. -/

namespace Sys2Proof

/-! ### As numbers -/

/-- Appending bits below. -/
theorem append_toNat {n m : Nat} (a : BitVec n) (b : BitVec m) : (a ++ b).toNat = a.toNat * 2 ^ m + b.toNat := by
  rw [BitVec.toNat_append, ← Nat.shiftLeft_add_eq_or_of_lt b.isLt, Nat.shiftLeft_eq]

theorem fieldOp_toNat (w : Word) : (fieldOp w).toNat = w.toNat / 4096 := by
  have := w.isLt
  simp only [fieldOp, BitVec.extractLsb'_toNat, Nat.shiftRight_eq_div_pow]; omega
theorem fieldX_val (w : Word) : (fieldX w).val = w.toNat / 256 % 16 := by
  show (w.extractLsb' 8 4).toNat = _
  simp only [BitVec.extractLsb'_toNat, Nat.shiftRight_eq_div_pow]
theorem fieldY_val (w : Word) : (fieldY w).val = w.toNat / 16 % 16 := by
  show (w.extractLsb' 4 4).toNat = _
  simp only [BitVec.extractLsb'_toNat, Nat.shiftRight_eq_div_pow]
theorem fieldN_toNat (w : Word) : (fieldN w).toNat = w.toNat % 16 := by
  simp only [fieldN, BitVec.extractLsb'_toNat, Nat.shiftRight_zero]
theorem fieldKk_toNat (w : Word) : (fieldKk w).toNat = w.toNat % 256 := by
  simp only [fieldKk, BitVec.extractLsb'_toNat, Nat.shiftRight_zero]
theorem fieldNnn_toNat (w : Word) : (fieldNnn w).toNat = w.toNat % 4096 := by
  simp only [fieldNnn, BitVec.extractLsb'_toNat, Nat.shiftRight_zero]

theorem encodeNnn_toNat (op : Nibble) (nnn : Addr) : (encodeNnn op nnn).toNat = op.toNat * 4096 + nnn.toNat := by
  rw [encodeNnn, append_toNat]; rfl
theorem encodeXkk_toNat (op : Nibble) (x : Reg) (kk : Byte) :
    (encodeXkk op x kk).toNat = op.toNat * 4096 + x.val * 256 + kk.toNat := by
  rw [encodeXkk, append_toNat, append_toNat]
  have : (regBits x).toNat = x.val := rfl
  omega
theorem encodeXyn_toNat (op : Nibble) (x y : Reg) (n : Nibble) :
    (encodeXyn op x y n).toNat = op.toNat * 4096 + x.val * 256 + y.val * 16 + n.toNat := by
  rw [encodeXyn, append_toNat, append_toNat, append_toNat]
  have : (regBits x).toNat = x.val := rfl
  have : (regBits y).toNat = y.val := rfl
  omega

/-! ### Fields of the formats (R72) -/

section
variable (op n : Nibble) (x y : Reg) (kk : Byte) (nnn : Addr)

@[simp] theorem fieldOp_encodeNnn : fieldOp (encodeNnn op nnn) = op :=
  BitVec.eq_of_toNat_eq (by rw [fieldOp_toNat, encodeNnn_toNat]; have := nnn.isLt; omega)
@[simp] theorem fieldNnn_encodeNnn : fieldNnn (encodeNnn op nnn) = nnn :=
  BitVec.eq_of_toNat_eq (by rw [fieldNnn_toNat, encodeNnn_toNat]; have := nnn.isLt; omega)

@[simp] theorem fieldOp_encodeXkk : fieldOp (encodeXkk op x kk) = op :=
  BitVec.eq_of_toNat_eq (by rw [fieldOp_toNat, encodeXkk_toNat]; have := kk.isLt; omega)
@[simp] theorem fieldX_encodeXkk : fieldX (encodeXkk op x kk) = x :=
  Fin.ext (by rw [fieldX_val, encodeXkk_toNat]; have := kk.isLt; omega)
@[simp] theorem fieldKk_encodeXkk : fieldKk (encodeXkk op x kk) = kk :=
  BitVec.eq_of_toNat_eq (by rw [fieldKk_toNat, encodeXkk_toNat]; have := kk.isLt; omega)

@[simp] theorem fieldOp_encodeXyn : fieldOp (encodeXyn op x y n) = op :=
  BitVec.eq_of_toNat_eq (by rw [fieldOp_toNat, encodeXyn_toNat]; have := n.isLt; omega)
@[simp] theorem fieldX_encodeXyn : fieldX (encodeXyn op x y n) = x :=
  Fin.ext (by rw [fieldX_val, encodeXyn_toNat]; have := n.isLt; omega)
@[simp] theorem fieldY_encodeXyn : fieldY (encodeXyn op x y n) = y :=
  Fin.ext (by rw [fieldY_val, encodeXyn_toNat]; have := n.isLt; omega)
@[simp] theorem fieldN_encodeXyn : fieldN (encodeXyn op x y n) = n :=
  BitVec.eq_of_toNat_eq (by rw [fieldN_toNat, encodeXyn_toNat]; have := n.isLt; omega)

end

/-! ### A word from its fields -/

/-- A word is op and nnn. -/
theorem encodeNnn_fields (w : Word) : encodeNnn (fieldOp w) (fieldNnn w) = w :=
  BitVec.eq_of_toNat_eq (by rw [encodeNnn_toNat, fieldOp_toNat, fieldNnn_toNat]; omega)

/-- A word is op, x and kk. -/
theorem encodeXkk_fields (w : Word) : encodeXkk (fieldOp w) (fieldX w) (fieldKk w) = w :=
  BitVec.eq_of_toNat_eq (by rw [encodeXkk_toNat, fieldOp_toNat, fieldX_val, fieldKk_toNat]; omega)

/-- A word is op, x, y and n. -/
theorem encodeXyn_fields (w : Word) : encodeXyn (fieldOp w) (fieldX w) (fieldY w) (fieldN w) = w :=
  BitVec.eq_of_toNat_eq (by rw [encodeXyn_toNat, fieldOp_toNat, fieldX_val, fieldY_val, fieldN_toNat]; omega)

/-! ### Bytes -/

/-- Big-endian: the first byte counts 256 times. -/
theorem joinBytes_toNat (hi lo : Byte) : (joinBytes hi lo).toNat = hi.toNat * 256 + lo.toNat := by
  rw [joinBytes, append_toNat]; rfl

/-- A word is its high byte and its low byte. -/
theorem joinBytes_highByte_lowByte (w : Word) : joinBytes (highByte w) (lowByte w) = w := by
  apply BitVec.eq_of_toNat_eq
  have := w.isLt
  rw [joinBytes_toNat]
  simp only [highByte, lowByte, BitVec.extractLsb'_toNat, Nat.shiftRight_eq_div_pow]
  omega

end Sys2Proof
end

