-- ==== Sys2Proof/Laws/Flags.lean ====
section
/-! SUPPORT. Flags, byte arithmetic and timers as the natural numbers of the spec (00_scope.md R12). -/

namespace Sys2Proof.Machine

/-- A flag is 1 or 0. -/
@[simp] theorem flagByte_toNat (c : Bool) : (flagByte c).toNat = if c then 1 else 0 := by cases c <;> rfl

/-- The carry of 8xy4. -/
theorem carryFlag_toNat (a b : Byte) : (carryFlag a b).toNat = if a.toNat + b.toNat > 255 then 1 else 0 := by
  simp [carryFlag]

/-- The flag of 8xy5 and 8xy7: strictly greater. -/
theorem noBorrowFlag_toNat (a b : Byte) : (noBorrowFlag a b).toNat = if a.toNat > b.toNat then 1 else 0 := by
  simp [noBorrowFlag]

/-- The 8-bit wrapping difference (R12). -/
theorem byteSub_toNat (a b : Byte) : (a - b).toNat = (a.toNat + 256 - b.toNat) % 256 := by
  rw [BitVec.toNat_sub]
  have := b.isLt
  omega

/-- The bit shifted out to the right. -/
theorem shiftedOutRight_toNat (a : Byte) : (shiftedOutRight a).toNat = a.toNat % 2 := by revert a; decide

/-- The bit shifted out to the left. -/
theorem shiftedOutLeft_toNat (a : Byte) : (shiftedOutLeft a).toNat = a.toNat / 128 := by revert a; decide

/-- One bit to the right. -/
theorem byteShr_toNat (a : Byte) : (a >>> 1).toNat = a.toNat / 2 := by revert a; decide

/-- One bit to the left, modulo 256. -/
theorem byteShl_toNat (a : Byte) : (a <<< 1).toNat = a.toNat * 2 % 256 := by revert a; decide

/-- A 12-bit value without high bits. -/
@[simp] theorem zext16_toNat (nnn : Addr) : (zext16 nnn).toNat = nnn.toNat := by
  have := nnn.isLt
  simp only [zext16, BitVec.toNat_setWidth]
  omega

/-- A timer counts down to 0 and stays there (R206). -/
@[simp] theorem countDown_toNat (t : Byte) : (countDown t).toNat = t.toNat - 1 := by revert t; decide

end Sys2Proof.Machine
end

