-- ==== Sys2Proof/Laws/Exec.lean ====
section
/-! SUPPORT. Said once for every instruction: what the next state is when exec answers one. -/

namespace Sys2Proof.Machine

/-- The next state of an instruction that completes, in terms of the state's updates. -/
def Effect (i : Instr) (s t : State) : Prop :=
  match i with
  | .cls => t = (s.setFb Framebuffer.clear).advance 2
  | .ret => ∃ j : Fin 16, s.sp.val = j.val + 1 ∧ t = (s.setSp j.castSucc).setPc (s.slot j)
  | .sys nnn | .jp nnn => t = s.setPc (zext16 nnn)
  | .call nnn => ∃ j : Fin 16, s.sp.val = j.val ∧
      t = ((s.setSlot j (s.pc + 2)).setSp j.succ).setPc (zext16 nnn)
  | .jpV0 nnn => t = s.setPc (BitVec.ofNat 16 ((s.reg v0).toNat + nnn.toNat))
  | .seVxByte x kk => t = s.skipIf (s.reg x == kk)
  | .sneVxByte x kk => t = s.skipIf (s.reg x != kk)
  | .seVxVy x y => t = s.skipIf (s.reg x == s.reg y)
  | .sneVxVy x y => t = s.skipIf (s.reg x != s.reg y)
  | .ldVxByte x kk => t = (s.setReg x kk).advance 2
  | .addVxByte x kk => t = (s.setReg x (s.reg x + kk)).advance 2
  | .ldVxVy x y => t = (s.setReg x (s.reg y)).advance 2
  | .or x y => t = (s.setReg x (s.reg x ||| s.reg y)).advance 2
  | .and x y => t = (s.setReg x (s.reg x &&& s.reg y)).advance 2
  | .xor x y => t = (s.setReg x (s.reg x ^^^ s.reg y)).advance 2
  | .addVxVy x y => t = ((s.setReg x (BitVec.ofNat 8 ((s.reg x).toNat + (s.reg y).toNat))).setFlag
      (carryFlag (s.reg x) (s.reg y))).advance 2
  | .sub x y => ∃ u, u = s.setFlag (noBorrowFlag (s.reg x) (s.reg y)) ∧
      t = (u.setReg x (u.reg x - u.reg y)).advance 2
  | .shr x _ => ∃ u, u = s.setFlag (shiftedOutRight (s.reg x)) ∧ t = (u.setReg x (u.reg x >>> 1)).advance 2
  | .subn x y => ∃ u, u = s.setFlag (noBorrowFlag (s.reg y) (s.reg x)) ∧
      t = (u.setReg x (u.reg y - u.reg x)).advance 2
  | .shl x _ => ∃ u, u = s.setFlag (shiftedOutLeft (s.reg x)) ∧ t = (u.setReg x (u.reg x <<< 1)).advance 2
  | .rnd x kk => t = (s.drawRnd.2.setReg x (Config.rnd s.draws &&& kk)).advance 2
  | .ldI nnn => t = (s.setI (zext16 nnn)).advance 2
  | .addIVx x => t = (s.setI (BitVec.ofNat 16 (s.i.toNat + (s.reg x).toNat))).advance 2
  | .ldFVx x => t = (s.setI (if s.params.fx29SourceCompat then (s.readByte (glyphAddr (s.reg x))).setWidth 16
      else BitVec.ofNat 16 (glyphAddr (s.reg x)))).advance 2
  | .ldBVx x => s.i.toNat + 3 ≤ 0x1000 ∧ t = (s.storeBytes s.i.toNat (bcdDigits (s.reg x))).advance 2
  | .ldMemVx x => s.i.toNat + (x.val + 1) ≤ 0x1000 ∧ t = (s.storeBytes s.i.toNat (s.regBytes x)).advance 2
  | .ldVxMem x => s.i.toNat + (x.val + 1) ≤ 0x1000 ∧ t = (s.loadRegs s.i.toNat x).advance 2
  | .drw x y n => (n.toNat = 0 ∨ s.i.toNat + n.toNat ≤ 0x1000) ∧ ∃ fb hit,
      Draws (SpriteCovers s (s.reg x).toNat (s.reg y).toNat s.i.toNat n.toNat) (s.fb, false) (fb, hit) ∧
      t = ((s.setFb fb).setFlag (flagByte hit)).advance 2
  | .skp x => ∃ k : Fin 16, (s.reg x).toNat = k.val ∧ t = s.skipIf s.keys[k.val]
  | .sknp x => ∃ k : Fin 16, (s.reg x).toNat = k.val ∧ t = s.skipIf (!s.keys[k.val])
  | .ldVxDt x => t = (s.setReg x s.dt).advance 2
  | .ldVxK x => (∃ k, s.firstHeldKey = some k ∧ t = (s.setReg x (BitVec.ofNat 8 k.val)).advance 2) ∨
      (s.firstHeldKey = none ∧ t = s)
  | .ldDtVx x => t = (s.setDt (s.reg x)).advance 2
  | .ldStVx x => t = (s.setSt (s.reg x)).advance 2

/-- What Dxyn draws, as a set of cells. -/
theorem draws_sprite (s : State) (vx vy : Byte) (n : Nibble) (base : Nat) :
    Draws (SpriteCovers s vx.toNat vy.toNat base n.toNat) (s.fb, false)
      (drawRows vx vy 0 (s.readBytes base n.toNat) (s.fb, false)) := by
  have h := draws_drawRows vx vy 0 (s.readBytes base n.toNat) (s.fb, false)
    (by have := n.isLt; rw [length_readBytes]; omega)
  have hc : RowsCover vx vy 0 (s.readBytes base n.toNat) = SpriteCovers s vx.toNat vy.toNat base n.toNat := by
    funext y x
    exact propext rowsCover_readBytes
  rwa [hc] at h

/-- A range check that answers a next state passed. -/
theorem withDataRange_next {base len : Nat} {k : Result State} {t : State}
    (h : withDataRange base len k = .next t) : (len = 0 ∨ base + len ≤ 0x1000) ∧ k = .next t := by
  rcases withDataRange_cases base len k with ⟨hr, hk⟩ | ⟨-, -, hk⟩
  · exact ⟨hr, hk ▸ h⟩
  · rw [hk] at h; cases h

/-- A key select that answers a next state found its key. -/
theorem withKey_next {s t : State} {b : Byte} {k : Bool → Result State} (h : withKey s b k = .next t) :
    ∃ j : Fin 16, b.toNat = j.val ∧ k s.keys[j.val] = .next t := by
  rcases withKey_cases s b k with ⟨j, hj, hk⟩ | ⟨-, hk⟩
  · exact ⟨j, hj, hk ▸ h⟩
  · rw [hk] at h; cases h

/-- Fx29 completes in both modes. -/
theorem execLdFVx_eq (x : Reg) (s : State) :
    execLdFVx x s = .next ((s.setI (if s.params.fx29SourceCompat then
      (s.readByte (glyphAddr (s.reg x))).setWidth 16 else BitVec.ofNat 16 (glyphAddr (s.reg x)))).advance 2) := by
  have h : glyphAddr (s.reg x) + 1 ≤ 0x1000 := by
    have := (s.reg x).isLt
    simp only [glyphAddr]; omega
  simp only [execLdFVx, withDataRange_ok (.inr h), done_eq]
  split <;> rfl

/-- 2nnn with a free slot. -/
theorem execCall_ok {s : State} (nnn : Addr) (j : Fin 16) (h : s.sp.val = j.val) :
    execCall nnn s = .next (((s.setSlot j (s.pc + 2)).setSp j.succ).setPc (zext16 nnn)) := by
  have hj : (⟨s.sp.val, h ▸ j.isLt⟩ : Fin 16) = j := Fin.ext h
  have hk : (⟨s.sp.val + 1, by omega⟩ : Fin 17) = j.succ := Fin.ext (by simp [h])
  rw [execCall, dif_pos (by omega), hj, hk]

/-- 2nnn with the stack full. -/
theorem execCall_fault {s : State} (nnn : Addr) (h : s.sp.val = 16) :
    execCall nnn s = .fault (.stackOverflow 16) := by
  rw [execCall, dif_neg (by omega), h]; rfl

/-- 00EE with a slot in use. -/
theorem execRet_ok {s : State} (j : Fin 16) (h : s.sp.val = j.val + 1) :
    execRet s = .next ((s.setSp j.castSucc).setPc (s.slot j)) := by
  have hj : (⟨s.sp.val - 1, by omega⟩ : Fin 16) = j := Fin.ext (by simp [h])
  have hk : (⟨s.sp.val - 1, by omega⟩ : Fin 17) = j.castSucc := Fin.ext (by simp [h])
  rw [execRet, dif_pos (by omega)]
  simp only [hj, hk]

/-- 00EE with the stack empty. -/
theorem execRet_fault {s : State} (h : s.sp.val = 0) : execRet s = .fault (.stackUnderflow 0) := by
  rw [execRet, dif_neg (by omega), h]; rfl

/-- Ex9E with a key in range. -/
theorem execSkp_ok {s : State} (x : Reg) (k : Fin 16) (h : (s.reg x).toNat = k.val) :
    execSkp x s = .next (s.skipIf s.keys[k.val]) := by
  rw [execSkp, withKey_ok k h]

/-- ExA1 with a key in range. -/
theorem execSknp_ok {s : State} (x : Reg) (k : Fin 16) (h : (s.reg x).toNat = k.val) :
    execSknp x s = .next (s.skipIf (!s.keys[k.val])) := by
  rw [execSknp, withKey_ok k h]

/-- Ex9E with no such key. -/
theorem execSkp_fault {s : State} (x : Reg) (h : 0xF < (s.reg x).toNat) :
    execSkp x s = .fault (.keyRange (s.reg x).toNat) := by
  rw [execSkp, withKey_fault h]

/-- ExA1 with no such key. -/
theorem execSknp_fault {s : State} (x : Reg) (h : 0xF < (s.reg x).toNat) :
    execSknp x s = .fault (.keyRange (s.reg x).toNat) := by
  rw [execSknp, withKey_fault h]

/-- Dxyn with its sprite in memory. -/
theorem execDrw_ok {s : State} (x y : Reg) (n : Nibble) (h : n.toNat = 0 ∨ s.i.toNat + n.toNat ≤ 0x1000) :
    ∃ fb hit, Draws (SpriteCovers s (s.reg x).toNat (s.reg y).toNat s.i.toNat n.toNat) (s.fb, false) (fb, hit) ∧
      execDrw x y n s = .next (((s.setFb fb).setFlag (flagByte hit)).advance 2) :=
  ⟨_, _, draws_sprite s (s.reg x) (s.reg y) n s.i.toNat, withDataRange_ok h⟩

/-- When exec answers a next state, it is the one Effect gives. -/
theorem exec_effect {i : Instr} {s t : State} (h : exec i s = .next t) : Effect i s t := by
  cases i with
  | ret =>
    simp only [exec, execRet] at h
    split at h
    · rename_i hp
      refine ⟨⟨s.sp.val - 1, by omega⟩, by simp only; omega, ?_⟩
      cases h; rfl
    · cases h
  | call nnn =>
    simp only [exec, execCall] at h
    split at h
    · rename_i hp
      refine ⟨⟨s.sp.val, hp⟩, rfl, ?_⟩
      cases h; rfl
    · cases h
  | ldFVx x =>
    rw [exec, execLdFVx_eq] at h
    cases h; rfl
  | ldBVx x =>
    obtain ⟨hr, hk⟩ := withDataRange_next (h : withDataRange _ _ _ = _)
    cases hk
    exact ⟨hr.resolve_left (by decide), rfl⟩
  | ldMemVx x =>
    obtain ⟨hr, hk⟩ := withDataRange_next (h : withDataRange _ _ _ = _)
    cases hk
    exact ⟨hr.resolve_left (by omega), rfl⟩
  | ldVxMem x =>
    obtain ⟨hr, hk⟩ := withDataRange_next (h : withDataRange _ _ _ = _)
    cases hk
    exact ⟨hr.resolve_left (by omega), rfl⟩
  | drw x y n =>
    obtain ⟨hr, hk⟩ := withDataRange_next (h : withDataRange _ _ _ = _)
    cases hk
    exact ⟨hr, _, _, draws_sprite s (s.reg x) (s.reg y) n s.i.toNat, rfl⟩
  | skp x =>
    simp only [exec, execSkp] at h
    obtain ⟨j, hj, hk⟩ := withKey_next h
    cases hk
    exact ⟨j, hj, rfl⟩
  | sknp x =>
    simp only [exec, execSknp] at h
    obtain ⟨j, hj, hk⟩ := withKey_next h
    cases hk
    exact ⟨j, hj, rfl⟩
  | ldVxK x =>
    simp only [exec, execLdVxK] at h
    split at h
    · rename_i k hk
      cases h
      exact .inl ⟨k, hk, rfl⟩
    · rename_i hk
      cases h
      exact .inr ⟨hk, rfl⟩
  | sub x y => cases h; exact ⟨_, rfl, rfl⟩
  | subn x y => cases h; exact ⟨_, rfl, rfl⟩
  | shr x y => cases h; exact ⟨_, rfl, rfl⟩
  | shl x y => cases h; exact ⟨_, rfl, rfl⟩
  | _ => cases h; rfl

/-- When an instruction faults, and with what. -/
def Fails (i : Instr) (s : State) (f : Fault) : Prop :=
  match i with
  | .ret => s.sp.val = 0 ∧ f = .stackUnderflow 0
  | .call _ => s.sp.val = 16 ∧ f = .stackOverflow 16
  | .skp x | .sknp x => 0xF < (s.reg x).toNat ∧ f = .keyRange (s.reg x).toNat
  | .ldBVx _ => 0x1000 < s.i.toNat + 3 ∧ f = .dataRange (max s.i.toNat 0x1000)
  | .ldMemVx x | .ldVxMem x => 0x1000 < s.i.toNat + (x.val + 1) ∧ f = .dataRange (max s.i.toNat 0x1000)
  | .drw _ _ n => 0 < n.toNat ∧ 0x1000 < s.i.toNat + n.toNat ∧ f = .dataRange (max s.i.toNat 0x1000)
  | _ => False

/-- A range check that answers a fault failed. -/
theorem withDataRange_fault_inv {base len : Nat} {t : State} {f : Fault}
    (h : withDataRange base len (.next t) = .fault f) :
    0 < len ∧ 0x1000 < base + len ∧ f = .dataRange (max base 0x1000) := by
  rcases withDataRange_cases base len (.next t) with ⟨-, hk⟩ | ⟨h1, h2, hk⟩
  · cases hk.symm.trans h
  · cases hk.symm.trans h
    exact ⟨Nat.pos_of_ne_zero h1, h2, rfl⟩

/-- A key select that answers a fault found no key. -/
theorem withKey_fault_inv {s : State} {b : Byte} {g : Bool → State} {f : Fault}
    (h : withKey s b (fun c => .next (g c)) = .fault f) : 0xF < b.toNat ∧ f = .keyRange b.toNat := by
  rcases withKey_cases s b (fun c => .next (g c)) with ⟨j, -, hk⟩ | ⟨hj, hk⟩
  · cases hk.symm.trans h
  · cases hk.symm.trans h
    exact ⟨hj, rfl⟩

/-- An instruction faults exactly as `Fails` says. -/
theorem exec_fault_iff {i : Instr} {s : State} {f : Fault} : exec i s = .fault f ↔ Fails i s f := by
  constructor
  · intro h
    cases i with
    | ret =>
      simp only [exec, execRet] at h
      split at h
      · cases h
      · cases h; exact ⟨by omega, by simp only [Fault.stackUnderflow.injEq]; omega⟩
    | call nnn =>
      simp only [exec, execCall] at h
      split at h
      · cases h
      · cases h; exact ⟨by omega, by simp only [Fault.stackOverflow.injEq]; omega⟩
    | ldFVx x => rw [exec, execLdFVx_eq] at h; cases h
    | ldBVx x => exact (withDataRange_fault_inv h).2
    | ldMemVx x => exact (withDataRange_fault_inv h).2
    | ldVxMem x => exact (withDataRange_fault_inv h).2
    | drw x y n => exact withDataRange_fault_inv h
    | skp x =>
      rw [exec, execSkp] at h
      exact withKey_fault_inv h
    | sknp x =>
      rw [exec, execSknp] at h
      exact withKey_fault_inv h
    | ldVxK x => simp only [exec, execLdVxK] at h; split at h <;> cases h
    | _ => cases h
  · intro h
    cases i with
    | ret => obtain ⟨h1, rfl⟩ := h; exact execRet_fault h1
    | call nnn => obtain ⟨h1, rfl⟩ := h; exact execCall_fault nnn h1
    | ldBVx x => obtain ⟨h1, rfl⟩ := h; exact withDataRange_fault (by decide) h1
    | ldMemVx x => obtain ⟨h1, rfl⟩ := h; exact withDataRange_fault (Nat.succ_ne_zero _) h1
    | ldVxMem x => obtain ⟨h1, rfl⟩ := h; exact withDataRange_fault (Nat.succ_ne_zero _) h1
    | drw x y n => obtain ⟨h0, h1, rfl⟩ := h; exact withDataRange_fault h0.ne' h1
    | skp x => obtain ⟨h1, rfl⟩ := h; exact execSkp_fault x h1
    | sknp x => obtain ⟨h1, rfl⟩ := h; exact execSknp_fault x h1
    | _ => exact h.elim

end Sys2Proof.Machine
end

