-- ==== Sys2Proof/Laws/PerInstr.lean ====
section
/-! SUPPORT. Per-instruction families: one lemma per constructor of Instr. -/

namespace Sys2Proof.Laws.OpcodeRow

/-- The word of an instruction carries the fixed bits of its row in the opcode map (R75). -/
def Statement (i : Instr) : Prop := encode i &&& i.rowMask = i.rowMatch

/-- A mask of ones keeps a nibble. -/
theorem nibble_and_ones (n : Nibble) : n &&& 0xF#4 = n := BitVec.and_allOnes

/-- A mask of ones keeps a byte. -/
theorem byte_and_ones (b : Byte) : b &&& 0xFF#8 = b := BitVec.and_allOnes

/-- Format NNN: the mask 0xF000 keeps op. -/
theorem nnn_row (op : Nibble) (nnn : Addr) : encodeNnn op nnn &&& 0xF000 = op ++ 0#12 := by
  have h : (0xF000 : Word) = 0xF#4 ++ 0#12 := by decide
  rw [h, encodeNnn, BitVec.and_append]; simp only [nibble_and_ones, BitVec.and_zero]

/-- Format XKK: the mask 0xF000 keeps op. -/
theorem xkk_row (op : Nibble) (x : Reg) (kk : Byte) : encodeXkk op x kk &&& 0xF000 = op ++ 0#4 ++ 0#8 := by
  have h : (0xF000 : Word) = 0xF#4 ++ 0#4 ++ 0#8 := by decide
  rw [h, encodeXkk, BitVec.and_append, BitVec.and_append]; simp only [nibble_and_ones, BitVec.and_zero]

/-- Format XSS: the mask 0xF0FF keeps op and the sub-opcode. -/
theorem xss_row (op : Nibble) (x : Reg) (kk : Byte) : encodeXkk op x kk &&& 0xF0FF = op ++ 0#4 ++ kk := by
  have h : (0xF0FF : Word) = 0xF#4 ++ 0#4 ++ 0xFF#8 := by decide
  rw [h, encodeXkk, BitVec.and_append, BitVec.and_append]
  simp only [nibble_and_ones, byte_and_ones, BitVec.and_zero]

/-- Formats XY0 and XYS: the mask 0xF00F keeps op and the sub-opcode. -/
theorem xys_row (op : Nibble) (x y : Reg) (n : Nibble) :
    encodeXyn op x y n &&& 0xF00F = op ++ 0#4 ++ 0#4 ++ n := by
  have h : (0xF00F : Word) = 0xF#4 ++ 0#4 ++ 0#4 ++ 0xF#4 := by decide
  rw [h, encodeXyn, BitVec.and_append, BitVec.and_append, BitVec.and_append]
  simp only [nibble_and_ones, BitVec.and_zero]

/-- Format XYN: the mask 0xF000 keeps op. -/
theorem xyn_row (op : Nibble) (x y : Reg) (n : Nibble) :
    encodeXyn op x y n &&& 0xF000 = op ++ 0#4 ++ 0#4 ++ 0#4 := by
  have h : (0xF000 : Word) = 0xF#4 ++ 0#4 ++ 0#4 ++ 0#4 := by decide
  rw [h, encodeXyn, BitVec.and_append, BitVec.and_append, BitVec.and_append]
  simp only [nibble_and_ones, BitVec.and_zero]

theorem cls : Statement .cls := by unfold Statement; decide
theorem ret : Statement .ret := by unfold Statement; decide
theorem sys (nnn : Addr) : Statement (.sys nnn) := nnn_row _ _
theorem jp (nnn : Addr) : Statement (.jp nnn) := nnn_row _ _
theorem call (nnn : Addr) : Statement (.call nnn) := nnn_row _ _
theorem ldI (nnn : Addr) : Statement (.ldI nnn) := nnn_row _ _
theorem jpV0 (nnn : Addr) : Statement (.jpV0 nnn) := nnn_row _ _
theorem seVxByte (x : Reg) (kk : Byte) : Statement (.seVxByte x kk) := xkk_row _ _ _
theorem sneVxByte (x : Reg) (kk : Byte) : Statement (.sneVxByte x kk) := xkk_row _ _ _
theorem ldVxByte (x : Reg) (kk : Byte) : Statement (.ldVxByte x kk) := xkk_row _ _ _
theorem addVxByte (x : Reg) (kk : Byte) : Statement (.addVxByte x kk) := xkk_row _ _ _
theorem rnd (x : Reg) (kk : Byte) : Statement (.rnd x kk) := xkk_row _ _ _
theorem seVxVy (x y : Reg) : Statement (.seVxVy x y) := xys_row _ _ _ _
theorem sneVxVy (x y : Reg) : Statement (.sneVxVy x y) := xys_row _ _ _ _
theorem ldVxVy (x y : Reg) : Statement (.ldVxVy x y) := xys_row _ _ _ _
theorem or (x y : Reg) : Statement (.or x y) := xys_row _ _ _ _
theorem and (x y : Reg) : Statement (.and x y) := xys_row _ _ _ _
theorem xor (x y : Reg) : Statement (.xor x y) := xys_row _ _ _ _
theorem addVxVy (x y : Reg) : Statement (.addVxVy x y) := xys_row _ _ _ _
theorem sub (x y : Reg) : Statement (.sub x y) := xys_row _ _ _ _
theorem shr (x y : Reg) : Statement (.shr x y) := xys_row _ _ _ _
theorem subn (x y : Reg) : Statement (.subn x y) := xys_row _ _ _ _
theorem shl (x y : Reg) : Statement (.shl x y) := xys_row _ _ _ _
theorem drw (x y : Reg) (n : Nibble) : Statement (.drw x y n) := xyn_row _ _ _ _
theorem skp (x : Reg) : Statement (.skp x) := xss_row _ _ _
theorem sknp (x : Reg) : Statement (.sknp x) := xss_row _ _ _
theorem ldVxDt (x : Reg) : Statement (.ldVxDt x) := xss_row _ _ _
theorem ldVxK (x : Reg) : Statement (.ldVxK x) := xss_row _ _ _
theorem ldDtVx (x : Reg) : Statement (.ldDtVx x) := xss_row _ _ _
theorem ldStVx (x : Reg) : Statement (.ldStVx x) := xss_row _ _ _
theorem addIVx (x : Reg) : Statement (.addIVx x) := xss_row _ _ _
theorem ldFVx (x : Reg) : Statement (.ldFVx x) := xss_row _ _ _
theorem ldBVx (x : Reg) : Statement (.ldBVx x) := xss_row _ _ _
theorem ldMemVx (x : Reg) : Statement (.ldMemVx x) := xss_row _ _ _
theorem ldVxMem (x : Reg) : Statement (.ldVxMem x) := xss_row _ _ _

end Sys2Proof.Laws.OpcodeRow
end

