-- ==== Sys2Proof/Machine/Disassembly.lean ====
section
/-! DEFINITION. The assembler text of an instruction (30_encoding.md R79). The machine never uses it: the disassembler
is outside the core (R82). -/

namespace Sys2Proof.Machine

/-- A hexadecimal digit, upper case (R79). -/
def hexDigit (d : Nat) : String :=
  if d < 10 then toString d
  else if d = 10 then "A" else if d = 11 then "B" else if d = 12 then "C"
  else if d = 13 then "D" else if d = 14 then "E" else "F"

/-- `Vx` and `Vy` are written V0..VF (R79). -/
def regText (r : Reg) : String := "V" ++ hexDigit r.val

/-- `addr`: three hexadecimal digits (R79). -/
def addrText (a : Addr) : String :=
  "0x" ++ hexDigit (a.toNat / 256) ++ hexDigit (a.toNat / 16 % 16) ++ hexDigit (a.toNat % 16)

/-- `byte`: two hexadecimal digits (R79). -/
def byteText (b : Byte) : String := "0x" ++ hexDigit (b.toNat / 16) ++ hexDigit (b.toNat % 16)

/-- `nibble`: one hexadecimal digit (R79). -/
def nibbleText (n : Nibble) : String := "0x" ++ hexDigit n.toNat

/-- A mnemonic with one or two operands. -/
def asm1 (name a : String) : String := name ++ " " ++ a

/-- A mnemonic with two operands. -/
def asm2 (name a b : String) : String := name ++ " " ++ a ++ ", " ++ b

/-- The table of R79 (log 23). -/
def instrText : Instr → String
  | .cls => "CLS"
  | .ret => "RET"
  | .sys nnn => asm1 "SYS" (addrText nnn)
  | .jp nnn => asm1 "JP" (addrText nnn)
  | .call nnn => asm1 "CALL" (addrText nnn)
  | .seVxByte x kk => asm2 "SE" (regText x) (byteText kk)
  | .sneVxByte x kk => asm2 "SNE" (regText x) (byteText kk)
  | .seVxVy x y => asm2 "SE" (regText x) (regText y)
  | .ldVxByte x kk => asm2 "LD" (regText x) (byteText kk)
  | .addVxByte x kk => asm2 "ADD" (regText x) (byteText kk)
  | .ldVxVy x y => asm2 "LD" (regText x) (regText y)
  | .or x y => asm2 "OR" (regText x) (regText y)
  | .and x y => asm2 "AND" (regText x) (regText y)
  | .xor x y => asm2 "XOR" (regText x) (regText y)
  | .addVxVy x y => asm2 "ADD" (regText x) (regText y)
  | .sub x y => asm2 "SUB" (regText x) (regText y)
  | .shr x y => asm2 "SHR" (regText x) (regText y)
  | .subn x y => asm2 "SUBN" (regText x) (regText y)
  | .shl x y => asm2 "SHL" (regText x) (regText y)
  | .sneVxVy x y => asm2 "SNE" (regText x) (regText y)
  | .ldI nnn => asm2 "LD" "I" (addrText nnn)
  | .jpV0 nnn => asm2 "JP" "V0" (addrText nnn)
  | .rnd x kk => asm2 "RND" (regText x) (byteText kk)
  | .drw x y n => asm2 "DRW" (regText x) (regText y) ++ ", " ++ nibbleText n
  | .skp x => asm1 "SKP" (regText x)
  | .sknp x => asm1 "SKNP" (regText x)
  | .ldVxDt x => asm2 "LD" (regText x) "DT"
  | .ldVxK x => asm2 "LD" (regText x) "K"
  | .ldDtVx x => asm2 "LD" "DT" (regText x)
  | .ldStVx x => asm2 "LD" "ST" (regText x)
  | .addIVx x => asm2 "ADD" "I" (regText x)
  | .ldFVx x => asm2 "LD" "F" (regText x)
  | .ldBVx x => asm2 "LD" "B" (regText x)
  | .ldMemVx x => asm2 "LD" "[I]" (regText x)
  | .ldVxMem x => asm2 "LD" (regText x) "[I]"

/-- The text of a word: an undefined word is `DW 0xhhhh` (R79). -/
def wordText (w : Word) : String :=
  match decodeWord w with
  | .ok i => instrText i
  | .error _ =>
    "DW 0x" ++ hexDigit (w.toNat / 4096) ++ hexDigit (w.toNat / 256 % 16) ++
      hexDigit (w.toNat / 16 % 16) ++ hexDigit (w.toNat % 16)

end Sys2Proof.Machine
end

