-- ==== Sys2Proof/Tests/Slice0.lean ====
section
/-! SUPPORT. Tests: decoding of written-out words, one step of each instruction (the vectors of 95_test_vectors.md and the
examples of the rules), the host's transactions, and witnesses for the statements' hypotheses. -/

namespace Sys2Proof.Tests

open Sys2Proof Sys2Proof.Machine

/-! ### Helpers -/

/-- The state after the step that runs a word at pc. -/
def stepped (w : Nat) (s : State) : Option State :=
  match step (s.withFetchWord 16 w) with
  | .next t => some t
  | _ => none

/-- The fault of the step that runs a word at pc. -/
def faulted (w : Nat) (s : State) : Option Fault :=
  match step (s.withFetchWord 16 w) with
  | .fault f => some f
  | _ => none

/-- A field of the state after the step that runs a word at pc. -/
def after {α : Type} (w : Nat) (s : State) (f : State → α) : Option α := (stepped w s).map f

/-- Reset with some registers set. -/
def regs (l : List (Reg × Byte)) : State := l.foldl (fun s p => s.setReg p.1 p.2) State.reset

/-- Reset with some keys held. -/
def held (l : List (Fin 16)) : State :=
  State.reset.setKeys (l.foldl (fun k j => k.set j.val true j.isLt) (Vector.replicate 16 false))

/-- A state with some cells on, as (row, column). -/
def lit (s : State) (l : List (Fin 32 × Fin 64)) : State :=
  s.setFb (l.foldl (fun fb c => fb.toggle c.1 c.2) s.fb)

/-- Reset with FX29_SOURCE_COMPAT. -/
def compat : State := State.resetWith { defaultParams with fx29SourceCompat := true }

/-! ### WellFormed refuses what has no encoding (R101) -/

theorem test_wellFormed_refuses_sys_0E0 : (Instr.sys 0x0E0).wellFormed = false := by decide
theorem test_wellFormed_refuses_sys_0EE : (Instr.sys 0x0EE).wellFormed = false := by decide
theorem test_wellFormed_accepts_sys_000 : (Instr.sys 0x000).wellFormed = true := by decide

/-! ### Decoding, written out bit by bit from the encodings of spec/opcode_table.json -/

theorem test_decode_control :
    decodeWord 0b0000000011101110 = .ok .ret ∧ decodeWord 0b0000000100100011 = .ok (.sys 0x123) ∧
    decodeWord 0b0001101010111100 = .ok (.jp 0xABC) ∧ decodeWord 0b0010101010111100 = .ok (.call 0xABC) ∧
    decodeWord 0b1011111111110001 = .ok (.jpV0 0xFF1) ∧
    decodeWord 0b0011001101000010 = .ok (.seVxByte 3 0x42) ∧
    decodeWord 0b0100001101000010 = .ok (.sneVxByte 3 0x42) ∧
    decodeWord 0b0101000100100000 = .ok (.seVxVy 1 2) ∧ decodeWord 0b1001000100100000 = .ok (.sneVxVy 1 2) := by
  decide

theorem test_decode_alu :
    decodeWord 0b0110101011111111 = .ok (.ldVxByte 0xA 0xFF) ∧
    decodeWord 0b0111000111111110 = .ok (.addVxByte 1 0xFE) ∧
    decodeWord 0b1000000100100000 = .ok (.ldVxVy 1 2) ∧ decodeWord 0b1000000100100001 = .ok (.or 1 2) ∧
    decodeWord 0b1000000100100010 = .ok (.and 1 2) ∧ decodeWord 0b1000000100100011 = .ok (.xor 1 2) ∧
    decodeWord 0b1000000100100100 = .ok (.addVxVy 1 2) ∧ decodeWord 0b1000000100100101 = .ok (.sub 1 2) ∧
    decodeWord 0b1000000100100110 = .ok (.shr 1 2) ∧ decodeWord 0b1000000100100111 = .ok (.subn 1 2) ∧
    decodeWord 0b1000000100101110 = .ok (.shl 1 2) ∧ decodeWord 0b1100001100001111 = .ok (.rnd 3 0x0F) := by
  decide

theorem test_decode_index_memory :
    decodeWord 0b1010001100000001 = .ok (.ldI 0x301) ∧ decodeWord 0b1111001000011110 = .ok (.addIVx 2) ∧
    decodeWord 0b1111001000101001 = .ok (.ldFVx 2) ∧ decodeWord 0b1111001000110011 = .ok (.ldBVx 2) ∧
    decodeWord 0b1111001001010101 = .ok (.ldMemVx 2) ∧ decodeWord 0b1111001001100101 = .ok (.ldVxMem 2) := by
  decide

theorem test_decode_display :
    decodeWord 0b0000000011100000 = .ok .cls ∧ decodeWord 0b1101000100101111 = .ok (.drw 1 2 0xF) := by decide

theorem test_decode_keys_timers :
    decodeWord 0b1110001010011110 = .ok (.skp 2) ∧ decodeWord 0b1110001010100001 = .ok (.sknp 2) ∧
    decodeWord 0b1111001100000111 = .ok (.ldVxDt 3) ∧ decodeWord 0b1111111100001010 = .ok (.ldVxK 0xF) ∧
    decodeWord 0b1111000000010101 = .ok (.ldDtVx 0) ∧ decodeWord 0b1111000100011000 = .ok (.ldStVx 1) := by
  decide

/-- L2.1: words at the edges of the families. -/
theorem test_decode_edges :
    decodeWord 0x01E0 = .ok (.sys 0x1E0) ∧ decodeWord 0x0AEE = .ok (.sys 0xAEE) ∧
    decodeWord 0x0000 = .ok (.sys 0x000) ∧ decodeWord 0x8008 = .error (.unknown 0x8008) ∧
    decodeWord 0x5121 = .error (.unknown 0x5121) ∧ decodeWord 0x9121 = .error (.unknown 0x9121) ∧
    decodeWord 0xE09F = .error (.unknown 0xE09F) ∧ decodeWord 0xFFFF = .error (.unknown 0xFFFF) := by decide

theorem test_decode_truncated : decodeBytes [0x12] = .error .truncated := by decide
theorem test_decode_big_endian : decodeBytes [0x6A, 0xFF, 0x12] = .ok (.ldVxByte 0xA 0xFF, [0x12]) := by decide
theorem test_table_word : decodeTableWord 16 0xF015 = some (.ldDtVx 0) ∧ decodeTableWord 16 0xF0FF = none := by decide

/-- R79: the assembler text. -/
theorem test_text : wordText 0x220E = "CALL 0x20E" ∧ wordText 0x8F16 = "SHR VF, V1" ∧ wordText 0xFF81 = "DW 0xFF81" := by
  decide

/-! ### The step cycle (L2.1, L2.7) -/

theorem test_unknown_advances : after 0x8008 State.reset State.pc = some 0x202 := by decide
theorem test_unknown_report : stepReport (State.reset.withFetchWord 16 0xF0FF) = .diag 0xF0FF := by decide
theorem test_fetch_last_word : after 0x1200 (State.reset.setPc 0xFFE) State.pc = some 0x200 := by decide
theorem test_fetch_odd_pc :
    after 0x6042 (State.reset.setPc 0x201) (fun t => (t.reg 0, t.pc)) = some (0x42, 0x203) := by decide
theorem test_reset_first_step : (transactAll [.step] State.reset).pc = 0x000 := by decide
theorem test_reset_font_runs :
    (transact .step (transactAll [.step] State.reset)).2 = .stepped (.diag 0xF090) ∧
    (transactAll [.step, .step, .step, .step] State.reset).pc = 0x006 := by decide

/-! ### Control flow (L2.3) -/

theorem test_ret : after 0x00EE ((State.reset.setSp 1).setSlot 0 0x206) (fun t => (t.sp, t.pc, t.slot 0)) =
    some (0, 0x206, 0x206) := by decide
theorem test_ret_underflow : faulted 0x00EE State.reset = some (.stackUnderflow 0) := by decide
theorem test_sys : after 0x0123 State.reset State.pc = some 0x123 := by decide
theorem test_jp_self : stepped 0x1200 State.reset = some (State.reset.withFetchWord 16 0x1200) := by decide
theorem test_jp_odd : after 0x1ABD State.reset State.pc = some 0xABD := by decide
theorem test_call_last_slot : after 0x2ABC (State.reset.setSp 15) (fun t => (t.slot 15, t.sp, t.pc)) =
    some (0x202, 16, 0xABC) := by decide
theorem test_call_overflow : faulted 0x2ABC (State.reset.setSp 16) = some (.stackOverflow 16) := by decide
theorem test_jpV0 : after 0xBFFF (regs [(0, 0xFF)]) State.pc = some 0x10FE := by decide
theorem test_jpV0_ignores_x : after 0xB300 (regs [(0, 0x10), (3, 0x40)]) State.pc = some 0x310 := by decide
theorem test_seVxByte : after 0x3342 (regs [(3, 0x42)]) State.pc = some 0x204 ∧
    after 0x3343 (regs [(3, 0x42)]) State.pc = some 0x202 := by decide
theorem test_sneVxByte : after 0x4342 (regs [(3, 0x42)]) State.pc = some 0x202 ∧
    after 0x4300 (regs [(3, 0x42)]) State.pc = some 0x204 := by decide
theorem test_seVxVy : after 0x5120 (regs [(1, 7), (2, 7)]) State.pc = some 0x204 ∧
    after 0x5120 (regs [(1, 7), (2, 8)]) State.pc = some 0x202 := by decide
theorem test_sneVxVy : after 0x9120 (regs [(1, 7), (2, 8)]) State.pc = some 0x204 ∧
    after 0x9110 (regs [(1, 7)]) State.pc = some 0x202 := by decide
theorem test_skip_past_end : after 0x3000 (State.reset.setPc 0xFFC) State.pc = some 0x1000 := by decide

/-! ### ALU (L2.2) -/

theorem test_ldVxByte : after 0x6AFF State.reset (fun t => (t.reg 0xA, t.pc)) = some (0xFF, 0x202) := by decide
theorem test_addVxByte : after 0x7001 (regs [(0, 0xFF), (vF, 0x55)]) (fun t => (t.reg 0, t.reg vF)) =
    some (0x00, 0x55) := by decide
theorem test_ldVxVy : after 0x8120 (regs [(2, 0x33)]) (fun t => (t.reg 1, t.reg 2)) = some (0x33, 0x33) := by decide
theorem test_or : after 0x8011 (regs [(0, 0x0F), (1, 0xF0), (vF, 7)]) (fun t => (t.reg 0, t.reg vF)) =
    some (0xFF, 7) := by decide
theorem test_and : after 0x8012 (regs [(0, 0x3C), (1, 0x0F), (vF, 7)]) (fun t => (t.reg 0, t.reg vF)) =
    some (0x0C, 7) := by decide
theorem test_xor : after 0x8013 (regs [(0, 0xFF), (1, 0x0F), (vF, 7)]) (fun t => (t.reg 0, t.reg vF)) =
    some (0xF0, 7) := by decide
theorem test_addVxVy : after 0x8014 (regs [(0, 0xFF), (1, 0x01)]) (fun t => (t.reg 0, t.reg vF)) = some (0, 1) ∧
    after 0x8014 (regs [(0, 0x80), (1, 0x7F)]) (fun t => (t.reg 0, t.reg vF)) = some (0xFF, 0) := by decide
theorem test_addVxVy_alias : after 0x8F14 (regs [(vF, 0xFF), (1, 0x01)]) (fun t => t.reg vF) = some 1 ∧
    after 0x80F4 (regs [(0, 0x10), (vF, 0xF0)]) (fun t => (t.reg 0, t.reg vF)) = some (0, 1) := by decide
theorem test_sub : after 0x8015 (regs [(0, 3), (1, 5)]) (fun t => (t.reg 0, t.reg vF)) = some (0xFE, 0) ∧
    after 0x8015 (regs [(0, 7), (1, 7)]) (fun t => (t.reg 0, t.reg vF)) = some (0, 0) := by decide
theorem test_sub_alias : after 0x8F15 (regs [(vF, 5), (1, 3)]) (fun t => t.reg vF) = some 0xFE ∧
    after 0x80F5 (regs [(0, 5), (vF, 3)]) (fun t => (t.reg 0, t.reg vF)) = some (4, 1) ∧
    after 0x8FF5 (regs [(vF, 9)]) (fun t => t.reg vF) = some 0 := by decide
theorem test_shr : after 0x8016 (regs [(0, 0x81), (1, 0xFF)]) (fun t => (t.reg 0, t.reg vF)) = some (0x40, 1) ∧
    after 0x8F06 (regs [(vF, 3)]) (fun t => t.reg vF) = some 0 := by decide
theorem test_subn : after 0x8017 (regs [(0, 5), (1, 3)]) (fun t => (t.reg 0, t.reg vF)) = some (0xFE, 0) ∧
    after 0x8017 (regs [(0, 3), (1, 5)]) (fun t => (t.reg 0, t.reg vF)) = some (2, 1) := by decide
theorem test_subn_alias : after 0x8F17 (regs [(vF, 3), (1, 5)]) (fun t => t.reg vF) = some 4 ∧
    after 0x80F7 (regs [(0, 3), (vF, 5)]) (fun t => (t.reg 0, t.reg vF)) = some (0xFE, 1) := by decide
theorem test_shl : after 0x801E (regs [(0, 0x81), (1, 0xFF)]) (fun t => (t.reg 0, t.reg vF)) = some (2, 1) ∧
    after 0x8F0E (regs [(vF, 0x80)]) (fun t => t.reg vF) = some 2 := by decide
theorem test_rnd_mask_zero : after 0xC300 (regs [(3, 9)]) (fun t => (t.pc, t.draws)) = some (0x202, 1) := by decide
theorem test_rnd_with : (match execRndWith 0xA5 3 0x0F State.reset with
    | .next t => some (t.reg 3) | _ => none) = some 0x05 := by decide

/-! ### Index register and memory (L2.4) -/

theorem test_ldI : after 0xA300 State.reset State.i = some 0x300 := by decide
theorem test_addIVx : after 0xF01E ((regs [(0, 0x20), (vF, 7)]).setI 0xFFF0) (fun t => (t.i, t.reg vF)) =
    some (0x0010, 7) := by decide
theorem test_addIVx_past_end : after 0xF01E ((regs [(0, 1)]).setI 0xFFF) State.i = some 0x1000 := by decide
theorem test_ldFVx : after 0xF029 (regs [(0, 0xFF)]) State.i = some 0x4FB ∧
    after 0xF029 (regs [(0, 0x0A)]) State.i = some 0x032 := by decide
theorem test_ldFVx_compat : after 0xF029 (compat.setReg 0 0x0A) State.i = some 0xF0 ∧
    after 0xF029 (compat.setReg 0 0xFF) State.i = some 0x00 := by decide
theorem test_ldBVx : after 0xF033 ((regs [(0, 0xFE)]).setI 0x300)
    (fun t => (t.readBytes 0x300 3, t.i)) = some ([2, 5, 4], 0x300) := by decide
theorem test_ldBVx_range : after 0xF033 ((regs [(0, 1)]).setI 0xFFD) (fun t => t.readBytes 0xFFD 3) =
      some [0, 0, 1] ∧
    faulted 0xF033 ((regs [(0, 1)]).setI 0xFFE) = some (.dataRange 0x1000) := by decide
theorem test_ldMemVx : after 0xF255 ((regs [(0, 1), (1, 2), (2, 3), (3, 4)]).setI 0x400)
    (fun t => (t.readBytes 0x400 4, t.i)) = some ([1, 2, 3, 0], 0x400) := by decide
theorem test_ldMemVx_range : after 0xF055 ((regs [(0, 9)]).setI 0xFFF) (fun t => t.readByte 0xFFF) = some 9 ∧
    faulted 0xF155 (State.reset.setI 0x1005) = some (.dataRange 0x1005) := by decide
theorem test_ldVxMem : after 0xF265 (regs [(3, 9)]) (fun t => [t.reg 0, t.reg 1, t.reg 2, t.reg 3]) =
    some [0xF0, 0x90, 0x90, 9] := by decide
theorem test_ldVxMem_range : after 0xFF65 State.reset (fun t => t.reg vF) = some 0xF0 ∧
    faulted 0xF165 (State.reset.setI 0xFFF) = some (.dataRange 0x1000) := by decide

/-! ### Display (L2.5) -/

theorem test_cls : after 0x00E0 (lit (regs [(vF, 3)]) [(0, 5), (31, 63)]) (fun t => (t.fb, t.reg vF)) =
    some (Framebuffer.clear, 3) := by decide
theorem test_drw : after 0xD015 State.reset (fun t => (t.fb[0], t.fb[1], t.fb[2], t.fb[3], t.fb[4], t.reg vF)) =
      some (0xF, 0x9, 0x9, 0x9, 0xF, 0) ∧
    after 0xD012 (((regs [(0, 0xFF), (1, 0xFF)]).setI 0x300).storeBytes 0x300 [0xC0, 0x80])
      (fun t => ((List.finRange 2048).filter t.fb.cellAt, t.reg vF)) = some ([63, 1984, 2047], 0) ∧
    after 0xD011 ((lit (State.reset.setI 0x300) [(0, 0), (0, 1)]).writeByte 0x300 0x80)
      (fun t => (t.fb[0], t.reg vF)) = some (0x2, 1) := ⟨by decide, by decide +kernel, by decide⟩
theorem test_drw_edges : after 0xDF11 (((regs [(vF, 3), (1, 2)]).setI 0x300).writeByte 0x300 0x80)
      (fun t => (t.fb.cellAt 131, t.reg vF)) = some (true, 0) ∧
    after 0xD000 ((lit (regs [(vF, 7)]) [(0, 5)]).setI 0xFFFF) (fun t => (t.fb[0], t.reg vF)) = some (0x20, 0) ∧
    faulted 0xD003 ((regs [(vF, 7)]).setI 0xFFE) = some (.dataRange 0x1000) := by decide

/-! ### Keys and timers (L2.6) -/

theorem test_skp : after 0xE29E ((held [5]).setReg 2 5) State.pc = some 0x204 ∧
    after 0xE29E (regs [(2, 5)]) State.pc = some 0x202 := by decide
theorem test_skp_range : faulted 0xE29E (regs [(2, 0x10)]) = some (.keyRange 0x10) ∧
    after 0xE29E ((held [15]).setReg 2 15) State.pc = some 0x204 := by decide
theorem test_sknp : after 0xE2A1 (regs [(2, 5)]) State.pc = some 0x204 ∧
    after 0xE2A1 ((held [5]).setReg 2 5) State.pc = some 0x202 := by decide
theorem test_sknp_range : faulted 0xE2A1 (regs [(2, 0xFF)]) = some (.keyRange 0xFF) := by decide
theorem test_ldVxDt : after 0xF307 (State.reset.setDt 0x3C) (fun t => t.reg 3) = some 0x3C := by decide
theorem test_ldVxK : after 0xF00A (held [9, 5]) (fun t => (t.reg 0, t.pc)) = some (5, 0x202) := by decide
theorem test_ldVxK_none : stepped 0xF00A State.reset = some (State.reset.withFetchWord 16 0xF00A) := by decide
theorem test_ldDtVx : after 0xF015 (regs [(0, 5)]) (fun t => (t.dt, t.st)) = some (5, 0) := by decide
theorem test_ldStVx : after 0xF118 (regs [(1, 0x10)]) (fun t => (t.st, t.dt, t.soundActive)) =
    some (0x10, 0, true) := by decide

/-! ### The host (L1.6, L1.8, L2.6) -/

theorem test_tick : ((State.reset.setDt 2).tick.tick.tick.dt, (State.reset.setSt 1).tick.soundActive) =
    (0, false) := by decide
theorem test_load_then_run :
    let s := transactAll [.load [0x60, 0x05, 0x61, 0x03, 0x80, 0x14], .step, .step, .step] State.reset
    (s.reg 0, s.reg 1, s.reg vF, s.pc) = (8, 3, 0, 0x206) := by decide
theorem test_load_rejected : loadImage (List.replicate 3585 1) State.reset = (false, State.reset) := by decide +kernel
theorem test_load_largest : (loadImage (List.replicate 3584 1) State.reset).1 = true := by decide +kernel
theorem test_setKeys : (transact (.setKeys (Vector.replicate 16 true)) State.reset).1.keys[15] = true := by decide
theorem test_reset_transaction :
    (transact .reset ((regs [(3, 9)]).writeByte 0x10 7)).1 = State.reset := by decide
theorem test_codes : (Fault.keyRange 0x10).code = 6 ∧ (Fault.keyRange 0x10).info = 0x10 ∧
    Report.code (.diag 0xFFFF) = some 1 := by decide

/-! ### Witnesses: concrete states and operands that meet the hypotheses of the statements -/

theorem inv_reset : State.reset.Inv :=
  ⟨by decide, by decide, by decide⟩

/-- The invariant with memory listed, I at the boundary of Fx33, pc at the last word and a stale slot. -/
def edge : State := ((((regs [(0, 0xFE), (1, 5)]).setI 0xFFD).setPc 0xFFE).setSlot 0 0x1000).writeByte 0xFFF 7

theorem inv_edge : edge.Inv := ⟨by decide, by decide, by decide⟩

/-- DecodeEncodeAgree, TableWordsDecode: well-formed instructions, the SYS next to CLS among them. -/
theorem witness_wellFormed : (Instr.sys 0x0E1).wellFormed = true ∧ (Instr.drw 15 15 15).wellFormed = true := by decide

/-- EncodeDecodeAgree, DecoderFollowsOpcodeMap: a word that decodes and whose row selects it. -/
theorem witness_decodes : decodeWord 0xFF65 = .ok (.ldVxMem 15) ∧ (Instr.ldVxMem 15).rowSelects 0xFF65 = true := by
  decide

/-- UndefinedWordsAreTheListedGroups: both clauses, at the edges of the groups. -/
theorem witness_undefinedWord : undefinedWord 0x5001 = true ∧ undefinedWord 0x5000 = false ∧
    undefinedWord 0x8FF8 = true ∧ undefinedWord 0x8FF7 = false ∧ undefinedWord 0xFF66 = true ∧
    undefinedWord 0xFF65 = false ∧ undefinedWord 0x0FFF = false := by decide

/-- StepRunsDecodedInstruction: at the last word; one instruction completes, one faults. -/
theorem witness_step : (edge.withFetchWord 16 0x1200).pc.toNat + 1 ≤ 0xFFF ∧
    decodeBytes ((edge.withFetchWord 16 0x1200).readBytes 0xFFE 2) = .ok (.jp 0x200, []) ∧
    decodeBytes ((edge.withFetchWord 16 0x00EE).readBytes 0xFFE 2) = .ok (.ret, []) ∧
    stepReport (edge.withFetchWord 16 0x1200) = .ok ∧
    stepReport (edge.withFetchWord 16 0x00EE) = .fault (.stackUnderflow 0) := by decide

/-- FetchIsBigEndianOrFaults: pc = 0xFFE for the first clause, pc = 0xFFF for the second. -/
theorem witness_fetch : edge.pc.toNat ≤ 0xFFE ∧ 0xFFF ≤ (edge.setPc 0xFFF).pc.toNat := by decide

/-- UnknownWordOnlyAdvances. -/
theorem witness_unknown : fetchWord (edge.withFetchWord 16 0x8008) = .ok 0x8008 ∧
    undefinedWord 0x8008 = true := ⟨rfl, by decide⟩

/-- StoredInstructionIsFetched. -/
theorem witness_stored : edge.Inv ∧ (Instr.drw 1 2 3).wellFormed = true ∧ edge.pc.toNat + 1 ≤ 0xFFF :=
  ⟨inv_edge, by decide, by decide⟩

/-- PcUpdateFollowsClass and the statements on which instruction writes what: a next state of each class, with the
piece named by the statement changed. -/
theorem witness_next : ∃ t₁ t₂ t₃ t₄, exec (.ldVxByte 3 9) State.reset = .next t₁ ∧ t₁.reg 3 ≠ State.reset.reg 3 ∧
    exec (.seVxByte 0 0) State.reset = .next t₂ ∧ t₂.pc = 0x204 ∧
    exec (.call 0x300) State.reset = .next t₃ ∧ t₃.sp ≠ State.reset.sp ∧ t₃.slot 0 ≠ State.reset.slot 0 ∧
    exec (.ldVxK 0) State.reset = .next t₄ :=
  ⟨_, _, _, _, rfl, by decide, rfl, by decide, rfl, by decide, by decide, rfl⟩

/-- PcUpdateFollowsClass: each side of a skip's condition and of Fx0A's, and a target of each kind. -/
theorem witness_pc_classes : SkipHolds (.seVxByte 0 0) State.reset ∧ ¬ SkipHolds (.sneVxByte 0 0) State.reset ∧
    SkipHolds (.skp 0) (held [0]) ∧ ¬ SkipHolds (.sknp 0) (held [0]) ∧ (held [15]).keys[(15 : Fin 16).val] = true ∧
    (∀ k : Fin 16, State.reset.keys[k.val] = false) ∧ Targets (.jp 0xFFF) State.reset 0xFFF ∧
    Targets (.jpV0 0xFFF) (regs [(0, 0xFF)]) 0x10FE ∧ Targets .ret (edge.setSp 1) 0x1000 :=
  ⟨rfl, fun h => h rfl, ⟨0, by decide⟩,
    fun ⟨k, hk, hoff⟩ => absurd hoff (by rw [show k = 0 from Fin.ext hk.symm]; decide),
    by decide, by decide, rfl, rfl, ⟨0, by decide⟩⟩

/-- MemorySpacesHaveTheirWriters, RegistersHaveTheirWriters: the other pieces changed. -/
theorem witness_writers : ∃ t₁ t₂ t₃ t₄ t₅ t₆, exec (.drw 0 0 1) State.reset = .next t₁ ∧
    t₁.fb.cell 0 0 ≠ State.reset.fb.cell 0 0 ∧
    exec (.ldBVx 1) edge = .next t₂ ∧ t₂.readByte 0xFFF ≠ edge.readByte 0xFFF ∧
    exec (.ldI 1) State.reset = .next t₃ ∧ t₃.i ≠ State.reset.i ∧
    exec (.ldDtVx 0) edge = .next t₄ ∧ t₄.dt ≠ edge.dt ∧
    exec (.ldStVx 0) edge = .next t₅ ∧ t₅.st ≠ edge.st ∧
    exec (.rnd 0 0) edge = .next t₆ ∧ t₆.draws ≠ edge.draws :=
  ⟨_, _, _, _, _, _, rfl, by decide, rfl, by decide, rfl, by decide, rfl, by decide, rfl, by decide, rfl, by decide⟩

/-- GeneralRegistersHaveTheirWriters: VF changed as a flag. -/
theorem witness_flag_writer : ∃ t, exec (.sub 0 1) edge = .next t ∧ t.reg vF ≠ edge.reg vF := ⟨_, rfl, by decide⟩

/-- InstructionRaisesOnlyItsFault, FaultingStepChangesNothing, FaultsDoNotDependOnKeys. -/
theorem witness_fault : exec .ret edge = .fault (.stackUnderflow 0) ∧
    step (edge.withFetchWord 16 0x00EE) = .fault (.stackUnderflow 0) := ⟨rfl, rfl⟩

/-- StepKeepsInvariant: a state with the invariant whose step completes. -/
theorem witness_inv_step : ∃ t, State.reset.Inv ∧ step State.reset = .next t := ⟨_, inv_reset, rfl⟩

/-- TransactionsKeepInvariant. -/
theorem witness_inv_transactions : edge.Inv := inv_edge

/-- CanonicalMemoryIsUnique: two canonical memories that read alike, built in different orders. -/
theorem witness_canonical :
    let m := (State.reset.storeBytes 0x300 [1, 2]).mem
    let m' := ((State.reset.writeByte 0x301 2).writeByte 0x300 1).mem
    Memory.wf defaultFont m ∧ Memory.wf defaultFont m' ∧ m = m' ∧ m ≠ [] := by decide

/-- MemWriteSetsOneByte: at the last address, and in the font with its own byte. -/
theorem witness_memWrite : Memory.wf edge.params.font edge.mem ∧ 0xFFF < memSize ∧
    (edge.writeByte 0xFFF 0).mem = [] ∧ (State.reset.writeByte 0 0xF0).mem = [] := by decide

/-- KeysReadOnlyByKeyInstructions, TimersReadOnlyByDelayRead, FramebufferReadOnlyByDraw: an instruction outside the
named ones. -/
theorem witness_nonreader : (∀ x, Instr.ret ≠ .skp x ∧ Instr.ret ≠ .sknp x ∧ Instr.ret ≠ .ldVxK x) ∧
    (∀ x, Instr.ret ≠ .ldStVx x) ∧ (∀ x, Instr.ret ≠ .ldDtVx x ∧ Instr.ret ≠ .ldVxDt x) ∧
    Instr.ret ≠ .cls ∧ ∀ x y n, Instr.ret ≠ .drw x y n :=
  ⟨fun _ => ⟨nofun, nofun, nofun⟩, fun _ => nofun, fun _ => ⟨nofun, nofun⟩, nofun, fun _ _ _ => nofun⟩

/-- JumpsSetPc, JumpWithOffsetAddsV0: a SYS that is neither CLS nor RET, the target 0xFFF, a jump to itself, and an
offset that passes 0xFFE. -/
theorem witness_jump : (0x1E0 : Addr) ≠ 0x0E0 ∧ (0x1E0 : Addr) ≠ 0x0EE ∧ (0xFFF : Addr).toNat = 0xFFF ∧
    State.reset.pc.toNat = (0x200 : Addr).toNat ∧
    0xFFE < ((regs [(0, 1)]).reg 0).toNat + (0xFFE : Addr).toNat := by decide

/-- CallPushesReturnAddress, CallThenReturnRestores: sp = 0, 15 and 16. -/
theorem witness_call : State.reset.sp.val < 16 ∧ (State.reset.setSp 15).sp.val < 16 ∧
    (State.reset.setSp 16).sp.val = 16 := by decide

/-- ReturnPopsReturnAddress: sp = 1, 16 and 0. -/
theorem witness_ret : (State.reset.setSp 1).sp.val = (0 : Fin 16).val + 1 ∧
    (State.reset.setSp 16).sp.val = (15 : Fin 16).val + 1 ∧ State.reset.sp.val = 0 := by decide

/-- SkipOnByteCompare, SkipOnRegisterCompare: equal and unequal. -/
theorem witness_skip : edge.reg 1 = 5 ∧ edge.reg 1 ≠ 6 ∧ edge.reg 0 ≠ edge.reg 1 ∧ edge.reg 2 = edge.reg 3 := by decide

/-- AddSetsCarry, SubtractSetsNoBorrow, ReverseSubtractSetsNoBorrow, ShiftsSetBitShiftedOut: the aliasings. -/
theorem witness_alias : (0 : Reg) ≠ vF ∧ (14 : Reg) ≠ vF ∧ (15 : Reg) = vF := by decide

/-- GlyphAddressInBothModes: both modes. -/
theorem witness_glyph : State.reset.params.fx29SourceCompat = false ∧ compat.params.fx29SourceCompat = true := by decide

/-- DecimalDigitsStored: I at its largest. -/
theorem witness_decimal : edge.Inv ∧ edge.i.toNat + 2 ≤ 0xFFF := ⟨inv_edge, by decide⟩

/-- RegistersStored, RegistersLoaded, StoreThenLoadRestores: I + x at its largest, and registers up to and above x. -/
theorem witness_registers : edge.Inv ∧ edge.i.toNat + (2 : Reg).val ≤ 0xFFF ∧ (2 : Reg) ≤ 2 ∧ (2 : Reg) < 3 :=
  ⟨inv_edge, by decide, by decide, by decide⟩

/-- DataRangeFaultReportsFirstAddress: each clause one past its boundary. -/
theorem witness_data_range : 0xFFF < (State.reset.setI 0xFFE).i.toNat + 2 ∧
    0xFFF < (State.reset.setI 0xFFE).i.toNat + (2 : Reg).val ∧ 1 ≤ (3 : Nibble).toNat ∧
    0xFFF < (State.reset.setI 0xFFE).i.toNat + (3 : Nibble).toNat - 1 := by decide

/-- DrawTogglesCoveredCells, CollisionFlagOfDraw: no row with I anywhere, a sprite that ends at 0xFFF, a covered and an
uncovered cell. -/
theorem witness_draw : ((0 : Nibble).toNat = 0 ∨ (State.reset.setI 0xFFFF).i.toNat + (0 : Nibble).toNat - 1 ≤ 0xFFF) ∧
    ((3 : Nibble).toNat = 0 ∨ edge.i.toNat + (3 : Nibble).toNat - 1 ≤ 0xFFF) ∧
    SpriteCovers State.reset 0 0 0 1 0 3 ∧ ¬ SpriteCovers State.reset 0 0 0 1 1 3 := by
  refine ⟨by decide, by decide, ⟨0, 3, by decide⟩, ?_⟩
  rintro ⟨row, col, hrow, -, hy, -⟩
  obtain rfl : row = 0 := by omega
  exact absurd hy (by decide)

/-- CollisionFlagOfDraw: a covered cell that is on, and a Dxyn that completes. -/
theorem witness_collision : ∃ t, exec (.drw 0 1 1) (lit State.reset [(0, 0)]) = .next t ∧
    SpriteCovers (lit State.reset [(0, 0)]) 0 0 0 1 0 0 ∧ (lit State.reset [(0, 0)]).fb.cell 0 0 = true :=
  ⟨_, rfl, ⟨0, 0, by decide⟩, by decide⟩

/-- DrawTwiceRestores. -/
theorem witness_draw_twice : (0 : Reg) ≠ vF ∧ (1 : Reg) ≠ vF ∧
    ((5 : Nibble).toNat = 0 ∨ State.reset.i.toNat + (5 : Nibble).toNat - 1 ≤ 0xFFF) := by decide

/-- KeySkipsTestLevel: the last key, held and not held, and the first value that is no key. -/
theorem witness_key_skip : ((held [15]).setReg 0 15).keys[(15 : Fin 16).val] = true ∧
    (((held [15]).setReg 0 15).reg 0).toNat = (15 : Fin 16).val ∧
    (regs [(0, 15)]).keys[(15 : Fin 16).val] = false ∧ 0xF < ((regs [(0, 16)]).reg 0).toNat := by decide

/-- KeyWaitTakesLowestKey: two keys held, and none. -/
theorem witness_key_wait : (held [9, 5]).keys[(5 : Fin 16).val] = true ∧
    (∀ j : Fin 16, j < 5 → (held [9, 5]).keys[j.val] = false) ∧
    ∀ k : Fin 16, State.reset.keys[k.val] = false := by decide

/-- TimersReachZero: a next state in which a timer changed. -/
theorem witness_timers : ∃ t, exec (.ldDtVx 0) edge = .next t ∧ t.dt ≠ edge.dt := ⟨_, rfl, by decide⟩

/-- LoadPortWritesImage: both clauses at the bound. -/
theorem witness_load : edge.Inv ∧ (List.replicate 3584 (1 : Byte)).length ≤ 3584 ∧
    3584 < (List.replicate 3585 (1 : Byte)).length :=
  ⟨inv_edge, by rw [List.length_replicate], by rw [List.length_replicate]; decide⟩

end Sys2Proof.Tests
end

section
/-! Every instruction has its effect or faults: the model is complete (00_scope.md R18, 30_encoding.md R75). -/

namespace Sys2Proof.Machine

/-- A range check in front of a next state adds only a fault. -/
theorem withDataRange_next_or_fault (base len : Nat) (t : State) :
    (∃ u, withDataRange base len (.next t) = .next u) ∨ ∃ f, withDataRange base len (.next t) = .fault f := by
  rcases withDataRange_cases base len (.next t) with ⟨-, hk⟩ | ⟨-, -, hk⟩
  · exact .inl ⟨_, hk⟩
  · exact .inr ⟨_, hk⟩

/-- A key select in front of next states adds only a fault. -/
theorem withKey_next_or_fault (s : State) (b : Byte) (g : Bool → State) :
    (∃ u, withKey s b (fun c => .next (g c)) = .next u) ∨ ∃ f, withKey s b (fun c => .next (g c)) = .fault f := by
  rcases withKey_cases s b (fun c => .next (g c)) with ⟨_, -, hk⟩ | ⟨-, hk⟩
  · exact .inl ⟨_, hk⟩
  · exact .inr ⟨_, hk⟩

/-- Every instruction answers a next state or a fault. With `exec_effect` and `exec_fault_iff` this says in every
state what exec answers. -/
theorem exec_next_or_fault (i : Instr) (s : State) : (∃ t, exec i s = .next t) ∨ ∃ f, exec i s = .fault f := by
  cases i with
  | ret =>
    by_cases h : s.sp.val = 0
    · exact .inr ⟨_, execRet_fault h⟩
    · exact .inl ⟨_, execRet_ok ⟨s.sp.val - 1, by omega⟩ (Nat.sub_one_add_one h).symm⟩
  | call nnn =>
    by_cases h : s.sp.val = 16
    · exact .inr ⟨_, execCall_fault nnn h⟩
    · exact .inl ⟨_, execCall_ok nnn ⟨s.sp.val, by omega⟩ rfl⟩
  | ldFVx x => exact .inl ⟨_, execLdFVx_eq x s⟩
  | ldBVx x => exact withDataRange_next_or_fault _ _ _
  | ldMemVx x => exact withDataRange_next_or_fault _ _ _
  | ldVxMem x => exact withDataRange_next_or_fault _ _ _
  | drw x y n => exact withDataRange_next_or_fault _ _ _
  | skp x => exact withKey_next_or_fault s (s.reg x) s.skipIf
  | sknp x => exact withKey_next_or_fault s (s.reg x) (fun c => s.skipIf (!c))
  | ldVxK x =>
    rw [exec, execLdVxK]
    split
    · exact .inl ⟨_, rfl⟩
    · exact .inl ⟨_, rfl⟩
  | _ => exact .inl ⟨_, rfl⟩

end Sys2Proof.Machine

namespace Sys2Proof

open Sys2Proof.Machine

/-- Settles O13: exec answers a next state or a fault, and neither is a refusal. -/
theorem noInstructionIsRefused : Obligations.NoInstructionIsRefused := by
  intro i s r h
  rcases exec_next_or_fault i s with ⟨t, ht⟩ | ⟨f, hf⟩
  · cases ht.symm.trans h
  · cases hf.symm.trans h

end Sys2Proof
end

section
/-! Canonical memory lists: what a list reads as determines it (10_state.md R28). -/

namespace Sys2Proof.Machine

variable {font : Vector Byte fontSize} {m m' : Memory} {p : Host.Cell}

/-- The first entry's address reads as that entry. -/
theorem Memory.read_cons_self (a : Nat) (b : Byte) : Memory.read font ((a, b) :: m) a = b := if_pos rfl

/-- Every other address reads as the rest of the list says. -/
theorem Memory.read_cons_other {a c : Nat} {b : Byte} (h : c ≠ a) :
    Memory.read font ((a, b) :: m) c = Memory.read font m c := if_neg h

/-- A canonical list whose first entry reads the same in another list is not wholly below that list: the entry
differs from the reset byte, which is what a list reads below its entries. -/
theorem Memory.not_below_of_read_eq (hm : Memory.wf font (p :: m))
    (h : Memory.read font (p :: m) p.1 = Memory.read font m' p.1) : ¬ ∀ q ∈ m', p.1 < q.1 := by
  intro hlt
  obtain ⟨⟨-, -, hne⟩, -⟩ := Memory.wf_cons.1 hm
  rw [Memory.read_cons_self, Memory.read_below hlt] at h
  exact hne h

/-- Canonical memories that read alike are equal. -/
theorem Memory.eq_of_read_eq (hm : Memory.wf font m) (hm' : Memory.wf font m')
    (h : ∀ a, a < memSize → Memory.read font m a = Memory.read font m' a) : m = m' := by
  induction m generalizing m' with
  | nil =>
    cases m' with
    | nil => rfl
    | cons q m' =>
      obtain ⟨⟨-, hq, -⟩, -⟩ := Memory.wf_cons.1 hm'
      exact absurd (by simp) (Memory.not_below_of_read_eq hm' (h q.1 hq).symm)
  | cons p m ih =>
    obtain ⟨⟨hlt, hp, -⟩, hwf⟩ := Memory.wf_cons.1 hm
    cases m' with
    | nil => exact absurd (by simp) (Memory.not_below_of_read_eq hm (h p.1 hp))
    | cons q m' =>
      obtain ⟨⟨hlt', hq, -⟩, hwf'⟩ := Memory.wf_cons.1 hm'
      have hpq : ¬ p.1 < q.1 := fun hl => Memory.not_below_of_read_eq hm (h p.1 hp)
        (List.forall_mem_cons.2 ⟨hl, fun r hr => hl.trans (hlt' r hr)⟩)
      have hqp : ¬ q.1 < p.1 := fun hl => Memory.not_below_of_read_eq hm' (h q.1 hq).symm
        (List.forall_mem_cons.2 ⟨hl, fun r hr => hl.trans (hlt r hr)⟩)
      obtain ⟨a, b⟩ := p
      obtain ⟨c, d⟩ := q
      obtain rfl : a = c := by omega
      have hb : b = d := by simpa only [Memory.read_cons_self] using h a hp
      have htail : ∀ e, e < memSize → Memory.read font m e = Memory.read font m' e := by
        intro e he
        by_cases hea : e = a
        · rw [hea, Memory.read_below hlt, Memory.read_below hlt']
        · simpa only [Memory.read_cons_other hea] using h e he
      rw [hb, ih hwf hwf' htail]

end Sys2Proof.Machine
end

section
/-! What reset leaves (10_state.md R35). -/

namespace Sys2Proof.Machine

/-- Memory right after reset reads as the reset contents. -/
theorem resetWith_readByte (p : Params) (a : Nat) :
    (State.resetWith p).readByte a = resetByte p.font a := rfl

/-- Every call-stack slot is 0 after reset. -/
theorem resetWith_slot (p : Params) (j : Fin 16) : (State.resetWith p).slot j = 0 :=
  Vector.getElem_replicate j.isLt

/-- Reset has the invariant. -/
theorem resetWith_inv (p : Params) : (State.resetWith p).Inv where
  memCanonical := Memory.wf_nil
  pcBound := by show (0x200 : Word).toNat ≤ 0x10FE; decide
  slotBound j := by rw [resetWith_slot]; decide

/-- The reset transaction leaves what reset leaves, but for the count of random bytes. -/
theorem hostReset_sameExcept_draws (s : State) : SameExcept (· = .draws) (State.resetWith s.params) s.hostReset := by
  intro p hp
  cases p with
  | draws => exact absurd rfl hp
  | _ => rfl

end Sys2Proof.Machine

namespace Sys2Proof

open Sys2Proof.Machine

/-- Settles O20, by induction on one list: the first entries have the same address and byte. -/
theorem canonicalMemoryIsUnique : Obligations.CanonicalMemoryIsUnique :=
  fun _ _ _ hm hm' h => Memory.eq_of_read_eq hm hm' h

/-- Settles O16. -/
theorem resetValues : Obligations.ResetValues := by
  refine ⟨fun p => ⟨fun r => ?_, rfl, rfl, rfl, rfl, rfl, resetWith_slot p, fun a ha => ?_, fun a ha => ?_,
    fun y x => ?_, fun k => ?_⟩, hostReset_sameExcept_draws⟩
  · exact Vector.getElem_replicate r.isLt
  · rw [resetWith_readByte, resetByte, dif_pos ha]
  · rw [resetWith_readByte, resetByte, dif_neg (Nat.not_lt.2 ha)]
  · simp [State.resetWith, Framebuffer.cell]
  · exact Vector.getElem_replicate k.isLt

/-- Settles O17. -/
theorem resetMeetsInvariant : Obligations.ResetMeetsInvariant := resetWith_inv

end Sys2Proof
end

section
/-! What an instruction that completes leaves unchanged, said once (10_state.md R20 to R32). -/

namespace Sys2Proof.Machine

/-- The fields in which t may differ from s, pc aside, and the instructions that may write them. -/
inductive Footprint (i : Instr) (s t : State) : Prop where
  | registers (ht : t = { s with pc := t.pc, v := t.v })
  | index (hi : (∃ nnn, i = .ldI nnn) ∨ ∃ x, i = .addIVx x ∨ i = .ldFVx x) (ht : t = { s with pc := t.pc, i := t.i })
  | delayTimer (hi : ∃ x, i = .ldDtVx x) (ht : t = { s with pc := t.pc, dt := t.dt })
  | soundTimer (hi : ∃ x, i = .ldStVx x) (ht : t = { s with pc := t.pc, st := t.st })
  | memory (hi : ∃ x, i = .ldBVx x ∨ i = .ldMemVx x) (ht : t = { s with pc := t.pc, mem := t.mem })
  | display (hi : i = .cls ∨ ∃ x y n, i = .drw x y n) (ht : t = { s with pc := t.pc, v := t.v, fb := t.fb })
  | random (hi : ∃ x kk, i = .rnd x kk) (ht : t = { s with pc := t.pc, v := t.v, draws := t.draws })
  | call (hi : ∃ nnn, i = .call nnn) (ht : t = { s with pc := t.pc, sp := t.sp, stack := t.stack })
  | ret (hi : i = .ret) (ht : t = { s with pc := t.pc, sp := t.sp })

/-- Storing bytes and moving pc changes memory and pc alone. -/
theorem storeBytes_advance_eq (s : State) (a : Nat) (bs : List Byte) (k : Word) :
    (s.storeBytes a bs).advance k = { s with pc := s.pc + k, mem := (s.storeBytes a bs).mem } := by
  rw [← storeBytes_pc (s := s) (a := a) bs]
  exact storeBytes_keeps
    (fun u => { u with pc := (s.storeBytes a bs).pc + k, mem := (s.storeBytes a bs).mem }) (fun _ _ _ => rfl) bs

/-- Loading registers and moving pc changes V and pc alone. -/
theorem loadRegs_advance_eq (s : State) (a : Nat) (x : Reg) (k : Word) :
    (s.loadRegs a x).advance k = { s with pc := s.pc + k, v := (s.loadRegs a x).v } := by
  rw [← loadRegs_pc (s := s) a x]
  exact loadRegs_keeps
    (fun u => { u with pc := (s.loadRegs a x).pc + k, v := (s.loadRegs a x).v }) (fun _ _ _ => rfl) a x

/-- An instruction that completes writes only its footprint. -/
theorem exec_footprint {i : Instr} {s t : State} (h : exec i s = .next t) : Footprint i s t := by
  have he := exec_effect h
  cases i with
  | cls => cases he; exact .display (.inl rfl) rfl
  | drw x y n => obtain ⟨-, fb, hit, -, rfl⟩ := he; exact .display (.inr ⟨x, y, n, rfl⟩) rfl
  | ret => obtain ⟨j, -, rfl⟩ := he; exact .ret rfl rfl
  | call nnn => obtain ⟨j, -, rfl⟩ := he; exact .call ⟨nnn, rfl⟩ rfl
  | ldI nnn => cases he; exact .index (.inl ⟨nnn, rfl⟩) rfl
  | addIVx x => cases he; exact .index (.inr ⟨x, .inl rfl⟩) rfl
  | ldFVx x => cases he; exact .index (.inr ⟨x, .inr rfl⟩) rfl
  | ldDtVx x => cases he; exact .delayTimer ⟨x, rfl⟩ rfl
  | ldStVx x => cases he; exact .soundTimer ⟨x, rfl⟩ rfl
  | rnd x kk => cases he; exact .random ⟨x, kk, rfl⟩ rfl
  | ldBVx x => obtain ⟨-, rfl⟩ := he; exact .memory ⟨x, .inl rfl⟩ (by rw [storeBytes_advance_eq])
  | ldMemVx x => obtain ⟨-, rfl⟩ := he; exact .memory ⟨x, .inr rfl⟩ (by rw [storeBytes_advance_eq])
  | ldVxMem x => obtain ⟨-, rfl⟩ := he; exact .registers (by rw [loadRegs_advance_eq])
  | sub x y | subn x y | shr x y | shl x y => obtain ⟨u, rfl, rfl⟩ := he; exact .registers rfl
  | skp x | sknp x => obtain ⟨k, -, rfl⟩ := he; exact .registers rfl
  | ldVxK x =>
    rcases he with ⟨k, -, rfl⟩ | ⟨-, rfl⟩
    · exact .registers rfl
    · exact .registers rfl
  | _ => cases he; exact .registers rfl

/-- A general register that is neither a destination of the instruction nor VF written as a flag is kept
(R20, R21). -/
theorem exec_keeps_reg {i : Instr} {s t : State} {r : Reg} (h : exec i s = .next t) (hd : writesReg i r = false)
    (hf : r = vF → writesFlag i = false) : t.reg r = s.reg r := by
  have he := exec_effect h
  cases i with
  | ldVxByte x kk | addVxByte x kk | ldVxVy x y | or x y | and x y | xor x y | rnd x kk | ldVxDt x =>
    have hx : r ≠ x := ne_of_beq_false hd
    cases he
    simp [hx]
  | addVxVy x y =>
    have hx : r ≠ x := ne_of_beq_false hd
    have hF : r ≠ vF := fun e => nomatch hf e
    cases he
    simp [hx, hF]
  | sub x y | subn x y | shr x y | shl x y =>
    have hx : r ≠ x := ne_of_beq_false hd
    have hF : r ≠ vF := fun e => nomatch hf e
    obtain ⟨u, rfl, rfl⟩ := he
    simp [hx, hF]
  | drw x y n =>
    have hF : r ≠ vF := fun e => nomatch hf e
    obtain ⟨-, fb, hit, -, rfl⟩ := he
    simp [hF]
  | ldVxK x =>
    have hx : r ≠ x := ne_of_beq_false hd
    rcases he with ⟨k, -, rfl⟩ | ⟨-, rfl⟩
    · simp [hx]
    · rfl
  | ldVxMem x =>
    have hx : ¬ r ≤ x := of_decide_eq_false hd
    obtain ⟨-, rfl⟩ := he
    simp [hx]
  | ret | call nnn => obtain ⟨j, -, rfl⟩ := he; rfl
  | skp x | sknp x => obtain ⟨k, -, rfl⟩ := he; rfl
  | ldBVx x | ldMemVx x => obtain ⟨-, rfl⟩ := he; simp
  | _ => cases he; rfl

end Sys2Proof.Machine

namespace Sys2Proof

open Sys2Proof.Machine

/-- Settles O22: outside its footprint an instruction changes nothing. -/
theorem memorySpacesHaveTheirWriters : Obligations.MemorySpacesHaveTheirWriters := by
  intro i s t h
  cases exec_footprint h with
  | registers ht | index _ ht | delayTimer _ ht | soundTimer _ ht | random _ ht =>
    rw [ht]; simp [State.readByte, State.slot]
  | memory hi ht => rw [ht]; simp [State.slot, hi]
  | display hi ht => rw [ht]; simp [State.readByte, State.slot, hi]
  | call hi ht => rw [ht]; simp [State.readByte, hi]
  | ret hi ht => rw [ht]; simp [State.readByte, State.slot, hi]

/-- Settles O23: outside its footprint an instruction changes nothing. -/
theorem registersHaveTheirWriters : Obligations.RegistersHaveTheirWriters := by
  intro i s t h
  cases exec_footprint h with
  | registers ht | memory _ ht | display _ ht | call _ ht | ret _ ht => rw [ht]; simp
  | index hi ht | delayTimer hi ht | soundTimer hi ht | random hi ht => rw [ht]; simp [hi]

/-- Settles O24: a register that is neither a destination nor the flag is kept. -/
theorem generalRegistersHaveTheirWriters : Obligations.GeneralRegistersHaveTheirWriters := by
  intro i s t r h hne
  by_contra hw
  obtain ⟨hd, hf⟩ := not_or.1 hw
  exact hne (exec_keeps_reg h (Bool.eq_false_of_not_eq_true hd)
    fun hr => Bool.eq_false_of_not_eq_true fun hfl => hf ⟨hr, hfl⟩)

end Sys2Proof
end

section
/-! Every step keeps the invariant (10_state.md R23, 40_control_flow.md R100 to R104, 20_memory.md R65). -/

namespace Sys2Proof.Machine

variable {i : Instr} {s t : State}

/-- An advance by k from a pc at which a word could be fetched. -/
theorem pc_add_toNat_le (pc k : Word) (hp : pc.toNat + 1 ≤ 0xFFF) : (pc + k).toNat ≤ 0xFFE + k.toNat := by
  rw [BitVec.toNat_add]
  exact (Nat.mod_le _ _).trans (by omega)

/-- A skip leaves pc at most 0x1002. -/
theorem skipIf_pc_le (c : Bool) (hp : s.pc.toNat + 1 ≤ 0xFFF) : (s.skipIf c).pc.toNat ≤ 0x1002 :=
  (pc_add_toNat_le _ _ hp).trans (by cases c <;> decide)

/-- The target of Bnnn is at most 0xFF + 0xFFF (R104). -/
theorem jpV0_target_le (b : Byte) (nnn : Addr) : (BitVec.ofNat 16 (b.toNat + nnn.toNat)).toNat ≤ 0x10FE := by
  have := b.isLt
  have := nnn.isLt
  rw [BitVec.toNat_ofNat]
  omega

/-- An instruction of the default postlude advances pc by 2 (R81). -/
theorem exec_postlude_pc (h : exec i s = .next t) (hc : pcClass i = .postlude) : t.pc = s.pc + 2 := by
  have he := exec_effect h
  cases i with
  | sub x y | subn x y | shr x y | shl x y => obtain ⟨u, rfl, rfl⟩ := he; rfl
  | drw x y n => obtain ⟨-, fb, hit, -, rfl⟩ := he; rfl
  | ldBVx x | ldMemVx x | ldVxMem x => obtain ⟨-, rfl⟩ := he; simp
  | sys _ | jp _ | call _ | jpV0 _ | ret => cases hc
  | seVxByte _ _ | sneVxByte _ _ | seVxVy _ _ | sneVxVy _ _ | skp _ | sknp _ | ldVxK _ => cases hc
  | _ => cases he; rfl

/-- An instruction fetched inside memory leaves pc at most 0x10FE: 0x1002 after an advance, 0x1000 after a return,
0xFFF after a jump or a call, 0x10FE after Bnnn. -/
theorem exec_pc_le (hs : s.Inv) (hp : s.pc.toNat + 1 ≤ 0xFFF) (h : exec i s = .next t) :
    t.pc.toNat ≤ 0x10FE := by
  have he := exec_effect h
  cases i with
  | sys nnn | jp nnn =>
    cases he
    simp only [setPc_pc, zext16_toNat]
    omega
  | call nnn =>
    obtain ⟨j, -, rfl⟩ := he
    simp only [setPc_pc, zext16_toNat]
    omega
  | ret =>
    obtain ⟨j, -, rfl⟩ := he
    exact (hs.slotBound j).trans (by decide)
  | jpV0 nnn => cases he; exact jpV0_target_le _ _
  | seVxByte x kk | sneVxByte x kk | seVxVy x y | sneVxVy x y =>
    cases he
    exact (skipIf_pc_le _ hp).trans (by decide)
  | skp x | sknp x =>
    obtain ⟨k, -, rfl⟩ := he
    exact (skipIf_pc_le _ hp).trans (by decide)
  | ldVxK x =>
    rcases he with ⟨k, -, rfl⟩ | ⟨-, rfl⟩
    · exact (pc_add_toNat_le _ _ hp).trans (by decide)
    · exact hs.pcBound
  | _ =>
    rw [exec_postlude_pc h rfl]
    exact (pc_add_toNat_le _ _ hp).trans (by decide)

/-- An instruction keeps memory canonical: it stores only inside memory. -/
theorem exec_memCanonical (hm : Memory.wf s.params.font s.mem) (h : exec i s = .next t) :
    Memory.wf t.params.font t.mem := by
  cases exec_footprint h with
  | memory hi ht =>
    obtain ⟨x, rfl | rfl⟩ := hi
    · obtain ⟨hr, rfl⟩ := exec_effect h
      simpa using wf_storeBytes (bs := bcdDigits (s.reg x)) hm hr
    · obtain ⟨hr, rfl⟩ := exec_effect h
      simpa using wf_storeBytes (bs := s.regBytes x) hm (by rwa [length_regBytes])
  | registers ht | index _ ht | delayTimer _ ht | soundTimer _ ht => rw [ht]; exact hm
  | display _ ht | random _ ht | call _ ht | ret _ ht => rw [ht]; exact hm

/-- An instruction fetched inside memory keeps the return addresses at most 0x1000: a call pushes pc + 2. -/
theorem exec_slot_le (hs : ∀ j, (s.slot j).toNat ≤ 0x1000) (hp : s.pc.toNat + 1 ≤ 0xFFF) (h : exec i s = .next t)
    (j : Fin 16) : (t.slot j).toNat ≤ 0x1000 := by
  cases exec_footprint h with
  | call hi ht =>
    obtain ⟨nnn, rfl⟩ := hi
    obtain ⟨k, -, rfl⟩ := exec_effect h
    simp only [setPc_slot, setSp_slot, setSlot_slot]
    split
    · exact (pc_add_toNat_le _ _ hp).trans (by decide)
    · exact hs j
  | registers ht | index _ ht | delayTimer _ ht | soundTimer _ ht => rw [ht]; exact hs j
  | memory _ ht | display _ ht | random _ ht | ret _ ht => rw [ht]; exact hs j

/-- An instruction fetched inside memory keeps the invariant. -/
theorem exec_inv (hs : s.Inv) (hp : s.pc.toNat + 1 ≤ 0xFFF) (h : exec i s = .next t) : t.Inv where
  memCanonical := exec_memCanonical hs.memCanonical h
  pcBound := exec_pc_le hs hp h
  slotBound := exec_slot_le hs.slotBound hp h

/-- An undefined word, which only advances pc, keeps the invariant. -/
theorem advance_inv (hs : s.Inv) (hp : s.pc.toNat + 1 ≤ 0xFFF) : (s.advance 2).Inv where
  memCanonical := hs.memCanonical
  pcBound := (pc_add_toNat_le _ _ hp).trans (by decide)
  slotBound := hs.slotBound

end Sys2Proof.Machine

namespace Sys2Proof

open Sys2Proof.Machine

/-- Settles O18: a step that completes fetched below 0xFFF, so its pc update starts there. -/
theorem stepKeepsInvariant : Obligations.StepKeepsInvariant := by
  intro s t hs h
  obtain ⟨hp, ⟨w, e, -, -, rfl⟩ | ⟨w, i, -, -, hi⟩⟩ := step_cases h
  · exact advance_inv hs hp
  · exact exec_inv hs hp hi

end Sys2Proof
end

section
/-! Noninterference: the keys, the timers and the framebuffer reach only the instructions named
(10_state.md R27, R29, R30; 20_memory.md R64). One replacement of any of these pieces serves for all four
statements. -/

namespace Sys2Proof.Machine

/-- New contents for some of the keys, DT, ST and the framebuffer. -/
structure Replacement where
  keys : Option (Vector Bool 16) := none
  dt : Option Byte := none
  st : Option Byte := none
  fb : Option Framebuffer := none

/-- The state with those pieces replaced. -/
def State.replace (s : State) (c : Replacement) : State :=
  { s with
    keys := c.keys.getD s.keys, dt := c.dt.getD s.dt, st := c.st.getD s.st, fb := c.fb.getD s.fb }

/-- The replacement leaves alone what the instruction reads or writes. -/
def Replacement.Unseen (c : Replacement) : Instr → Prop
  | .skp _ | .sknp _ | .ldVxK _ => c.keys = none
  | .ldVxDt _ | .ldDtVx _ => c.dt = none
  | .ldStVx _ => c.st = none
  | .cls | .drw _ _ _ => c.fb = none
  | _ => True

variable (s : State) (c : Replacement)

/-! The updates of the statements are replacements. -/

theorem setKeys_eq_replace (k : Vector Bool 16) : s.setKeys k = s.replace { keys := some k } := rfl
theorem setDt_eq_replace (b : Byte) : s.setDt b = s.replace { dt := some b } := rfl
theorem setSt_eq_replace (b : Byte) : s.setSt b = s.replace { st := some b } := rfl
theorem setFb_eq_replace (fb : Framebuffer) : s.setFb fb = s.replace { fb := some fb } := rfl

/-! ### The replacement and the shared operations -/

/-- Storing bytes commutes with the replacement. -/
theorem storeBytes_replace (a : Nat) (bs : List Byte) :
    (s.replace c).storeBytes a bs = (s.storeBytes a bs).replace c := by
  induction bs generalizing s a with
  | nil => rfl
  | cons b bs ih => exact ih (s.writeByte a b) (a + 1)

/-- The bytes of memory are as before the replacement. -/
theorem readBytes_replace (a n : Nat) : (s.replace c).readBytes a n = s.readBytes a n := by
  induction n generalizing a with
  | zero => rfl
  | succ n ih => exact congrArg (s.readByte a :: ·) (ih (a + 1))

/-- Writing a list of registers commutes with the replacement. -/
theorem foldl_setReg_replace (f : Reg → Byte) (l : List Reg) :
    l.foldl (fun t r => t.setReg r (f r)) (s.replace c) = (l.foldl (fun t r => t.setReg r (f r)) s).replace c := by
  induction l generalizing s with
  | nil => rfl
  | cons r l ih => exact ih (s.setReg r (f r))

/-- Loading registers from memory commutes with the replacement. -/
theorem loadRegs_replace (a : Nat) (x : Reg) : (s.replace c).loadRegs a x = (s.loadRegs a x).replace c :=
  foldl_setReg_replace s c (fun r => s.readByte (a + r.val)) (regsUpTo x)

/-- A function of the next state passes through a range check. -/
theorem mapNext_withDataRange (f : State → State) (base len : Nat) (k : Result State) :
    mapNext f (withDataRange base len k) = withDataRange base len (mapNext f k) := by
  rw [withDataRange, withDataRange]
  cases firstOutOfRange base len with
  | none => rfl
  | some a => rfl

/-- A function of the next state passes through a key select. -/
theorem mapNext_withKey (f : State → State) (b : Byte) (k : Bool → Result State) :
    mapNext f (withKey s b k) = withKey s b (fun held => mapNext f (k held)) := by
  rw [withKey, withKey]
  split <;> rfl

/-! ### The replacement and the instructions -/

variable {c}

/-- Fx0A and the replacement of other pieces than the keys. -/
theorem execLdVxK_replace (x : Reg) (hc : c.keys = none) :
    execLdVxK x (s.replace c) = mapNext (·.replace c) (execLdVxK x s) := by
  have hk : (s.replace c).keys = s.keys := by simp [State.replace, hc]
  have hf : (s.replace c).firstHeldKey = s.firstHeldKey := by simp only [State.firstHeldKey, hk]
  rw [execLdVxK, execLdVxK, hf]
  cases s.firstHeldKey with
  | none => rfl
  | some k => rfl

/-- A key select and the replacement of other pieces than the keys. -/
theorem withKey_replace (b : Byte) (k : Bool → Result State) (hc : c.keys = none) :
    withKey (s.replace c) b k = withKey s b k := by
  simp only [withKey, State.replace, hc, Option.getD_none]

/-- An instruction does the same whatever stands in the pieces that it neither reads nor writes, and leaves them
as they were, faults included. -/
theorem exec_replace (i : Instr) (hc : c.Unseen i) :
    exec i (s.replace c) = mapNext (·.replace c) (exec i s) := by
  cases i with
  | ret =>
    by_cases h : s.sp.val = 0
    · rw [exec, exec, execRet_fault h, execRet_fault (s := s.replace c) h]; rfl
    · obtain ⟨j, hj⟩ : ∃ j : Fin 16, s.sp.val = j.val + 1 :=
        ⟨⟨s.sp.val - 1, by omega⟩, (Nat.sub_one_add_one h).symm⟩
      rw [exec, exec, execRet_ok j hj, execRet_ok (s := s.replace c) j hj]; rfl
  | call nnn =>
    by_cases h : s.sp.val = 16
    · rw [exec, exec, execCall_fault nnn h, execCall_fault (s := s.replace c) nnn h]; rfl
    · obtain ⟨j, hj⟩ : ∃ j : Fin 16, s.sp.val = j.val := ⟨⟨s.sp.val, by omega⟩, rfl⟩
      rw [exec, exec, execCall_ok nnn j hj, execCall_ok (s := s.replace c) nnn j hj]; rfl
  | ldFVx x => rw [exec, exec, execLdFVx_eq, execLdFVx_eq]; rfl
  | ldBVx x =>
    rw [exec, exec, execLdBVx, execLdBVx, mapNext_withDataRange, storeBytes_replace]; rfl
  | ldMemVx x =>
    rw [exec, exec, execLdMemVx, execLdMemVx, mapNext_withDataRange, storeBytes_replace]; rfl
  | ldVxMem x =>
    rw [exec, exec, execLdVxMem, execLdVxMem, mapNext_withDataRange, loadRegs_replace]; rfl
  | skp x =>
    rw [exec, exec, execSkp, execSkp, mapNext_withKey, withKey_replace s _ _ hc]; rfl
  | sknp x =>
    rw [exec, exec, execSknp, execSknp, mapNext_withKey, withKey_replace s _ _ hc]; rfl
  | ldVxK x => exact execLdVxK_replace s x hc
  | drw x y n =>
    obtain ⟨k, d, t, fb⟩ := c
    obtain rfl : fb = none := hc
    rw [exec, exec, execDrw, execDrw, mapNext_withDataRange, readBytes_replace]; rfl
  | cls | ldVxDt x | ldDtVx x | ldStVx x =>
    obtain ⟨k, d, t, fb⟩ := c
    cases hc
    rfl
  | _ => rfl

end Sys2Proof.Machine

namespace Sys2Proof

open Sys2Proof.Machine

/-- Settles O25: new keys are unseen by every instruction but the three. -/
theorem keysReadOnlyByKeyInstructions : Obligations.KeysReadOnlyByKeyInstructions := by
  intro i s k hi
  simp only [setKeys_eq_replace]
  refine exec_replace s i ?_
  cases i with
  | skp x => exact absurd rfl (hi x).1
  | sknp x => exact absurd rfl (hi x).2.1
  | ldVxK x => exact absurd rfl (hi x).2.2
  | _ => simp [Replacement.Unseen]

/-- Settles O26: a new ST is unseen by every instruction but Fx18, a new DT by every one but Fx07 and Fx15. -/
theorem timersReadOnlyByDelayRead : Obligations.TimersReadOnlyByDelayRead := by
  intro i s b
  refine ⟨fun hi => ?_, fun x => rfl, fun hi => ?_, fun x => rfl⟩
  · simp only [setSt_eq_replace]
    refine exec_replace s i ?_
    cases i with
    | ldStVx x => exact absurd rfl (hi x)
    | _ => simp [Replacement.Unseen]
  · simp only [setDt_eq_replace]
    refine exec_replace s i ?_
    cases i with
    | ldDtVx x => exact absurd rfl (hi x).1
    | ldVxDt x => exact absurd rfl (hi x).2
    | _ => simp [Replacement.Unseen]

/-- Settles O27: a new framebuffer is unseen by every instruction but 00E0 and Dxyn. -/
theorem framebufferReadOnlyByDraw : Obligations.FramebufferReadOnlyByDraw := by
  intro i s fb hcls hdrw
  simp only [setFb_eq_replace]
  refine exec_replace s i ?_
  cases i with
  | cls => exact absurd rfl hcls
  | drw x y n => exact absurd rfl (hdrw x y n)
  | _ => simp [Replacement.Unseen]

end Sys2Proof
end

section
/-! Stores inside memory and the load port (20_memory.md R58, R65). -/

namespace Sys2Proof.Machine

variable {s t : State}

/-- The invariant speaks of memory, the parameters, pc and the call stack: a state that holds in these what s holds
has it when s has it. -/
theorem State.Inv.congr (hs : s.Inv) (hmem : t.mem = s.mem) (hparams : t.params = s.params) (hpc : t.pc = s.pc)
    (hstack : t.stack = s.stack) : t.Inv where
  memCanonical := by rw [hmem, hparams]; exact hs.memCanonical
  pcBound := by rw [hpc]; exact hs.pcBound
  slotBound j := by rw [State.slot, hstack]; exact hs.slotBound j

/-- Storing bytes inside memory keeps the invariant. -/
theorem storeBytes_inv {a : Nat} {bs : List Byte} (hs : s.Inv) (h : a + bs.length ≤ memSize) :
    (s.storeBytes a bs).Inv where
  memCanonical := by rw [storeBytes_params]; exact wf_storeBytes hs.memCanonical h
  pcBound := by rw [storeBytes_pc]; exact hs.pcBound
  slotBound j := by rw [storeBytes_slot]; exact hs.slotBound j

/-- Storing bytes changes the bytes stored and no other piece of the state. -/
theorem storeBytes_sameExcept (s : State) (a : Nat) (bs : List Byte) :
    SameExcept (fun p => ∃ k, k < bs.length ∧ p = .byte (a + k)) s (s.storeBytes a bs) := by
  intro p hp
  cases p with
  | byte c =>
    have hc : c < a ∨ a + bs.length ≤ c := by
      by_contra hin
      exact hp ⟨c - a, by omega, congrArg Piece.byte (by omega)⟩
    exact congrArg BitVec.toNat (readByte_storeBytes_other hc)
  | _ => simp [Piece.value]

/-- An image that fits is stored from 0x200 on. -/
theorem transact_load_accepted {image : List Byte} (h : image.length ≤ progMax) (s : State) :
    transact (.load image) s = (s.storeBytes progBase image, .loaded) := by
  simp [transact, loadImage, Nat.not_lt.2 h]

/-- A longer image is rejected whole (decision D17). -/
theorem transact_load_rejected {image : List Byte} (h : progMax < image.length) (s : State) :
    transact (.load image) s = (s, .loadRejected) := by
  simp [transact, loadImage, h]

/-- An image that fits the load port ends inside memory: 0x200 + 3584 = 0x1000. -/
theorem progBase_add_le {image : List Byte} (h : image.length ≤ progMax) : progBase + image.length ≤ memSize :=
  Nat.add_le_add_left h progBase

end Sys2Proof.Machine

namespace Sys2Proof

open Sys2Proof.Machine

/-- Settles O21: read after write, at the address written and at any other. -/
theorem memWriteSetsOneByte : Obligations.MemWriteSetsOneByte := by
  intro s a c b hm ha
  refine ⟨Memory.wf_write hm ha, ?_⟩
  split_ifs with hc
  · rw [hc]; exact readByte_writeByte_same hm
  · exact readByte_writeByte_other hc

/-- Settles O58: an accepted load stores the image, a rejected one leaves the state. -/
theorem loadPortWritesImage : Obligations.LoadPortWritesImage := by
  intro s image hs
  refine ⟨fun h => ?_, fun h => transact_load_rejected h s⟩
  rw [transact_load_accepted h]
  exact ⟨rfl, fun k hk => readByte_storeBytes_same hs.memCanonical (progBase_add_le h) hk,
    storeBytes_sameExcept s progBase image⟩

end Sys2Proof
end

section
/-! Every sequence of host transactions keeps the invariant and the parameters (00_scope.md R9, 20_memory.md R59,
60_exceptions.md R192, R211). -/

namespace Sys2Proof.Machine

variable {s t : State}

/-- A step that completes keeps the parameters. -/
theorem step_params (h : step s = .next t) : t.params = s.params := by
  obtain ⟨-, ⟨w, e, -, -, rfl⟩ | ⟨w, i, -, -, hi⟩⟩ := step_cases h
  · rfl
  · obtain ⟨-, -, -, -, hparams, -⟩ := registersHaveTheirWriters i s t hi
    exact hparams

/-- The step transaction takes a completing step, or changes no state (R192). -/
theorem afterStep_cases (s : State) : step s = .next s.afterStep ∨ s.afterStep = s := by
  rw [State.afterStep]
  cases step s with
  | next t => exact .inl rfl
  | fault f => exact .inr rfl
  | refused r => exact .inr rfl

/-- One transaction keeps the parameters. -/
theorem transact_params (tr : Transaction) (s : State) : (transact tr s).1.params = s.params := by
  cases tr with
  | load image =>
    rcases Nat.lt_or_ge progMax image.length with h | h
    · rw [transact_load_rejected h]
    · rw [transact_load_accepted h]; exact storeBytes_params image
  | step =>
    show s.afterStep.params = s.params
    rcases afterStep_cases s with h | h
    · exact step_params h
    · rw [h]
  | reset | setKeys _ | tick | readFb | readSound => rfl

/-- One transaction keeps the invariant. -/
theorem transact_inv (tr : Transaction) (hs : s.Inv) : (transact tr s).1.Inv := by
  cases tr with
  | reset => exact (resetWith_inv s.params).congr rfl rfl rfl rfl
  | load image =>
    rcases Nat.lt_or_ge progMax image.length with h | h
    · rw [transact_load_rejected h]; exact hs
    · rw [transact_load_accepted h]; exact storeBytes_inv hs (progBase_add_le h)
  | step =>
    show s.afterStep.Inv
    rcases afterStep_cases s with h | h
    · exact stepKeepsInvariant s _ hs h
    · rw [h]; exact hs
  | setKeys _ | tick => exact hs.congr rfl rfl rfl rfl
  | readFb | readSound => exact hs

end Sys2Proof.Machine

namespace Sys2Proof

open Sys2Proof.Machine

/-- Settles O19, by induction on the list: each transaction keeps both. -/
theorem transactionsKeepInvariant : Obligations.TransactionsKeepInvariant := by
  intro ts
  induction ts with
  | nil => exact fun s hs => ⟨hs, rfl⟩
  | cons tr ts ih =>
    intro s hs
    obtain ⟨hinv, hparams⟩ := ih _ (transact_inv tr hs)
    exact ⟨hinv, hparams.trans (transact_params tr s)⟩

end Sys2Proof
end

section
/-! Decoding undoes encoding (30_encoding.md R72 to R75). -/

namespace Sys2Proof

/-- A word of format NNN is no word whose nnn differs. -/
theorem encodeNnn_ne {op : Nibble} {nnn : Addr} {w : Word} (h : nnn ≠ fieldNnn w) : encodeNnn op nnn ≠ w :=
  fun he => h (by rw [← he, fieldNnn_encodeNnn])

/-- SYS with an encoding is neither CLS nor RET, the two words that family 0x0 matches whole (R101). -/
theorem decodeFamily0_encodeNnn {nnn : Addr} (h : (Instr.sys nnn).wellFormed = true) :
    decodeFamily0 (encodeNnn 0#4 nnn) = .sys nnn := by
  obtain ⟨hcls, hret⟩ : nnn ≠ fieldNnn 0x00E0#16 ∧ nnn ≠ fieldNnn 0x00EE#16 := by
    simpa [Instr.wellFormed, fieldNnn] using h
  rw [decodeFamily0, if_neg (encodeNnn_ne hcls), if_neg (encodeNnn_ne hret), fieldNnn_encodeNnn]

/-- Decoding the word of a well-formed instruction gives that instruction: the op, and in families 0x8, 0xE and 0xF
the sub-opcode, selects its row, and each field is read back. -/
theorem decodeWord_encode {i : Instr} (h : i.wellFormed = true) : decodeWord (encode i) = .ok i := by
  cases i with
  | cls | ret => rfl
  | sys nnn => simp [encode, decodeWord, decodeFamily0_encodeNnn h]
  | jp _ | call _ | ldI _ | jpV0 _ => simp [encode, decodeWord]
  | seVxByte _ _ | sneVxByte _ _ | ldVxByte _ _ | addVxByte _ _ | rnd _ _ => simp [encode, decodeWord]
  | seVxVy _ _ | sneVxVy _ _ | drw _ _ _ => simp [encode, decodeWord]
  | ldVxVy _ _ | or _ _ | and _ _ | xor _ _ | addVxVy _ _ | sub _ _ | shr _ _ | subn _ _ | shl _ _ =>
    simp [encode, decodeWord, decodeFamily8]
  | skp _ | sknp _ => simp [encode, decodeWord, decodeFamilyE]
  | ldVxDt _ | ldVxK _ | ldDtVx _ | ldStVx _ | addIVx _ | ldFVx _ | ldBVx _ | ldMemVx _ | ldVxMem _ =>
    simp [encode, decodeWord, decodeFamilyF]

/-- The decoder on bytes sees the word that was laid out, high byte first. -/
theorem decodeBytes_wordBytes (w : Word) {i : Instr} (h : decodeWord w = .ok i) :
    decodeBytes (wordBytes w) = .ok (i, []) := by
  simp only [wordBytes, decodeBytes, joinBytes_highByte_lowByte, h]

/-- Settles O6: the two bytes join to the word again, and decoding undoes encoding. -/
theorem tableWordsDecode : Obligations.TableWordsDecode := by
  intro i hi
  have hw : BitVec.ofNat 16 ((encode i).toNat % 2 ^ 16) = encode i := by
    rw [Nat.mod_eq_of_lt (encode i).isLt, BitVec.ofNat_toNat, BitVec.setWidth_eq]
  rw [decodeTableWord, hw, decodeBytes_wordBytes _ (decodeWord_encode hi)]

end Sys2Proof
end

section
/-! Fetch: big-endian, coherent with earlier writes, or a fault (20_memory.md R51, R54, R61). -/

namespace Sys2Proof.Machine

variable {s : State} {w : Word} {i : Instr}

/-- A step whose word decodes is the effect of that instruction (R80). -/
theorem step_eq_exec (hw : fetchWord s = .ok w) (hd : decodeWord w = .ok i) : step s = exec i s := by
  simp only [step, hw, hd]

/-- Where no word can be fetched, the step is the fault FETCH_RANGE. -/
theorem step_fetchRange (h : ¬ s.pc.toNat + 1 ≤ 0xFFF) : step s = .fault (.fetchRange s.pc.toNat) := by
  simp only [step, fetchWord_error h, raise]

/-- Where no word can be fetched, the report is the fault FETCH_RANGE. -/
theorem stepReport_fetchRange (h : ¬ s.pc.toNat + 1 ≤ 0xFFF) : stepReport s = .fault (.fetchRange s.pc.toNat) := by
  simp only [stepReport, fetchWord_error h]

/-- The word fetched is the one whose high byte is at pc and whose low byte is at pc + 1. -/
theorem fetchWord_eq_of_bytes (hp : s.pc.toNat + 1 ≤ 0xFFF) (hhi : s.readByte s.pc.toNat = highByte w)
    (hlo : s.readByte (s.pc.toNat + 1) = lowByte w) : fetchWord s = .ok w := by
  rw [fetchWord_ok hp, hhi, hlo, joinBytes_highByte_lowByte]

/-- A word whose two bytes were written at pc and pc + 1, in canonical memory, is the word fetched (R61). -/
theorem fetchWord_writeByte_writeByte (hm : Memory.wf s.params.font s.mem) (hp : s.pc.toNat + 1 ≤ 0xFFF) (w : Word) :
    fetchWord ((s.writeByte s.pc.toNat (highByte w)).writeByte (s.pc.toNat + 1) (lowByte w)) = .ok w := by
  have ha : s.pc.toNat < memSize := Nat.lt_succ_of_le (Nat.le_of_succ_le hp)
  refine fetchWord_eq_of_bytes hp ?_ (readByte_writeByte_same (Memory.wf_write hm ha))
  rw [writeByte_pc, writeByte_pc, readByte_writeByte_other (by omega), readByte_writeByte_same hm]

end Sys2Proof.Machine

namespace Sys2Proof

open Sys2Proof.Machine

/-- Settles O8: the fetch joins the two bytes, and a fetch that faults is the whole step. -/
theorem fetchIsBigEndianOrFaults : Obligations.FetchIsBigEndianOrFaults := by
  intro s
  refine ⟨fun h => ⟨_, fetchWord_ok (by omega), joinBytes_toNat _ _⟩, fun h => ?_⟩
  exact ⟨step_fetchRange (by omega), stepReport_fetchRange (by omega)⟩

/-- Settles O10: the word fetched is the word stored, and it decodes to the instruction. -/
theorem storedInstructionIsFetched : Obligations.StoredInstructionIsFetched := by
  intro s i hs hi hp
  exact step_eq_exec (fetchWord_writeByte_writeByte hs.memCanonical hp (encode i)) (decodeWord_encode hi)

end Sys2Proof
end

section
/-! The data range check of Fx33, Fx55, Fx65 and Dxyn (20_memory.md R52). -/

namespace Sys2Proof

open Sys2Proof.Machine

/-- Settles O48: `Fails` gives the info of each range check as the base or 0x1000. -/
theorem dataRangeFaultReportsFirstAddress : Obligations.DataRangeFaultReportsFirstAddress := by
  intro s x y n
  refine ⟨fun h => ?_, fun h => ?_, fun h => ?_, fun hn h => ?_⟩
  · exact exec_fault_iff.2 ⟨by omega, rfl⟩
  · exact exec_fault_iff.2 ⟨by omega, rfl⟩
  · exact exec_fault_iff.2 ⟨by omega, rfl⟩
  · exact exec_fault_iff.2 ⟨hn, by omega, rfl⟩

end Sys2Proof
end

section
/-! The decoder is the opcode map: every word is the word of one well-formed instruction, or stands in a group of R76
(30_encoding.md R74 to R76). -/

namespace Sys2Proof

variable {w : Word} {i : Instr}

/-! ### A word with its fixed fields written out (R72) -/

theorem encodeNnn_eq {op : Nibble} (hop : (fieldOp w).toNat = op.toNat) : encodeNnn op (fieldNnn w) = w :=
  BitVec.eq_of_toNat_eq hop ▸ encodeNnn_fields w

theorem encodeXkk_eq {op : Nibble} (hop : (fieldOp w).toNat = op.toNat) :
    encodeXkk op (fieldX w) (fieldKk w) = w :=
  BitVec.eq_of_toNat_eq hop ▸ encodeXkk_fields w

theorem encodeXyn_eq {op : Nibble} (hop : (fieldOp w).toNat = op.toNat) :
    encodeXyn op (fieldX w) (fieldY w) (fieldN w) = w :=
  BitVec.eq_of_toNat_eq hop ▸ encodeXyn_fields w

/-- Format XSS. -/
theorem encodeXss_eq {op : Nibble} {kk : Byte} (hop : (fieldOp w).toNat = op.toNat)
    (hkk : (fieldKk w).toNat = kk.toNat) : encodeXkk op (fieldX w) kk = w :=
  BitVec.eq_of_toNat_eq hkk ▸ encodeXkk_eq hop

/-- Formats XY0 and XYS. -/
theorem encodeXys_eq {op n : Nibble} (hop : (fieldOp w).toNat = op.toNat) (hn : (fieldN w).toNat = n.toNat) :
    encodeXyn op (fieldX w) (fieldY w) n = w :=
  BitVec.eq_of_toNat_eq hn ▸ encodeXyn_eq hop

/-! ### What the decoder answers -/

/-- What R74 and R76 ask of the decoder's answer to a word: the well-formed instruction whose word it is, or the
rejection of the word where it stands in one of the five groups. -/
def Answers (w : Word) : Except DecodeError Instr → Prop
  | .ok i => encode i = w ∧ i.wellFormed = true ∧ undefinedWord w = false
  | .error e => e = .unknown w ∧ undefinedWord w = true

/-- Family 0x0. -/
theorem decodeFamily0_answers (hop : (fieldOp w).toNat = 0x0) : Answers w (.ok (decodeFamily0 w)) := by
  have hdef : undefinedWord w = false := by simp only [undefinedWord, hop]
  rw [decodeFamily0]
  split_ifs with hcls hret
  · exact ⟨hcls.symm, rfl, hdef⟩
  · exact ⟨hret.symm, rfl, hdef⟩
  · have hw : encode (.sys (fieldNnn w)) = w := encodeNnn_eq hop
    refine ⟨hw, ?_, hdef⟩
    have hcls' : fieldNnn w ≠ 0x0E0#12 := fun h => hcls (hw.symm.trans (by rw [h]; rfl))
    have hret' : fieldNnn w ≠ 0x0EE#12 := fun h => hret (hw.symm.trans (by rw [h]; rfl))
    simp [Instr.wellFormed, hcls', hret']

/-- Families 0x5 and 0x9: the low nibble is 0 or the word is undefined (decision D23). -/
theorem lowNibbleZero_answers (hop : (fieldOp w).toNat = 0x5 ∨ (fieldOp w).toNat = 0x9)
    (hi : (fieldN w).toNat = 0 → encode i = w) (hwf : i.wellFormed = true) :
    Answers w (if fieldN w = 0 then .ok i else .error (.unknown w)) := by
  have hdef : undefinedWord w = ((fieldN w).toNat != 0) := by
    rcases hop with h | h <;> simp only [undefinedWord, h]
  split_ifs with hn
  · exact ⟨hi (congrArg BitVec.toNat hn), hwf, by rw [hdef, hn]; rfl⟩
  · refine ⟨rfl, ?_⟩
    rw [hdef, bne_iff_ne]
    exact fun h => hn (BitVec.eq_of_toNat_eq h)

/-- Family 0x8: the low nibble selects the row. -/
theorem decodeFamily8_answers (hop : (fieldOp w).toNat = 0x8) : Answers w (decodeFamily8 w) := by
  rw [decodeFamily8]
  split
  case h_10 =>
    simp only [imp_false] at *
    have hlt := (fieldN w).isLt
    exact ⟨rfl, by simp [undefinedWord, hop]; omega⟩
  all_goals
    next hn => exact ⟨encodeXys_eq hop hn, rfl, by simp [undefinedWord, hop, hn]⟩

/-- Family 0xE: the low byte selects the row. -/
theorem decodeFamilyE_answers (hop : (fieldOp w).toNat = 0xE) : Answers w (decodeFamilyE w) := by
  rw [decodeFamilyE]
  split
  case h_3 =>
    simp only [imp_false] at *
    exact ⟨rfl, by simp [undefinedWord, *]⟩
  all_goals
    next hkk => exact ⟨encodeXss_eq hop hkk, rfl, by simp [undefinedWord, hop, hkk]⟩

/-- Family 0xF: the low byte selects the row. -/
theorem decodeFamilyF_answers (hop : (fieldOp w).toNat = 0xF) : Answers w (decodeFamilyF w) := by
  rw [decodeFamilyF]
  split
  case h_10 =>
    simp only [imp_false] at *
    exact ⟨rfl, by simp [undefinedWord, *]⟩
  all_goals
    next hkk => exact ⟨encodeXss_eq hop hkk, rfl, by simp [undefinedWord, hop, hkk]⟩

/-- The decoder answers every word as R74 and R76 ask: the fields it reads are those of the word, and where op alone
does not select the row, the family's own lemma says which words are undefined. -/
theorem decodeWord_answers (w : Word) : Answers w (decodeWord w) := by
  rw [decodeWord]
  split
  case h_1 hop => exact decodeFamily0_answers hop
  case h_6 hop => exact lowNibbleZero_answers (.inl hop) (fun hn => encodeXys_eq hop hn) rfl
  case h_9 hop => exact decodeFamily8_answers hop
  case h_10 hop => exact lowNibbleZero_answers (.inr hop) (fun hn => encodeXys_eq hop hn) rfl
  case h_14 hop => exact ⟨encodeXyn_eq hop, rfl, by simp only [undefinedWord, hop]⟩
  case h_15 hop => exact decodeFamilyE_answers hop
  case h_16 hop => exact decodeFamilyF_answers hop
  case h_2 hop | h_3 hop | h_11 hop | h_12 hop =>
    exact ⟨encodeNnn_eq hop, rfl, by simp only [undefinedWord, hop]⟩
  case h_4 hop | h_5 hop | h_7 hop | h_8 hop | h_13 hop =>
    exact ⟨encodeXkk_eq hop, rfl, by simp only [undefinedWord, hop]⟩
  case h_17 =>
    simp only [imp_false] at *
    have hlt := (fieldOp w).isLt
    omega

/-- A word that decodes is the word of its instruction. -/
theorem encode_of_decodeWord (h : decodeWord w = .ok i) : encode i = w ∧ i.wellFormed = true := by
  have ha := decodeWord_answers w
  rw [h] at ha
  obtain ⟨hw, hwf, -⟩ := ha
  exact ⟨hw, hwf⟩

/-- A word of R76 is rejected under its own name. -/
theorem decodeWord_undefined (h : undefinedWord w = true) : decodeWord w = .error (.unknown w) := by
  have ha := decodeWord_answers w
  cases hd : decodeWord w with
  | ok i =>
    rw [hd] at ha
    exact absurd (h.symm.trans ha.2.2) (by decide)
  | error e =>
    rw [hd] at ha
    rw [ha.1]

/-- A word outside R76 decodes. -/
theorem decodeWord_defined (h : undefinedWord w = false) : ∃ i, decodeWord w = .ok i := by
  have ha := decodeWord_answers w
  cases hd : decodeWord w with
  | ok i => exact ⟨i, rfl⟩
  | error e =>
    rw [hd] at ha
    exact absurd (h.symm.trans ha.2) (by decide)

/-- Settles O2: each field of the word laid out is read back. -/
theorem decodeEncodeAgree : Obligations.DecodeEncodeAgree := fun _ hi => decodeWord_encode hi

/-- Settles O3: the decoder's answer carries its word. -/
theorem encodeDecodeAgree : Obligations.EncodeDecodeAgree := fun _ _ h => encode_of_decodeWord h

/-- Settles O5: the decoder's answer to a word of R76 is a rejection, and to any other an instruction. -/
theorem undefinedWordsAreTheListedGroups : Obligations.UndefinedWordsAreTheListedGroups :=
  fun _ => ⟨decodeWord_undefined, decodeWord_defined⟩

/-- Settles O1, by evaluating the decoder on the eleven words. -/
theorem writtenWordsDecode : Obligations.WrittenWordsDecode := by
  unfold Obligations.WrittenWordsDecode
  decide

end Sys2Proof
end

section
/-! The decoder and the masks of the opcode map (30_encoding.md R75). -/

namespace Sys2Proof

variable {w m t : Word} {i : Instr}

/-- A word selects a row by mask and match, and SYS excludes the words of CLS and RET. -/
theorem rowSelects_iff :
    i.rowSelects w = true ↔
      w &&& i.rowMask = i.rowMatch ∧ ∀ nnn, i = .sys nnn → w ≠ 0x00E0#16 ∧ w ≠ 0x00EE#16 := by
  cases i <;> simp [Instr.rowSelects]

/-- The word of an instruction carries the fixed bits of its row. -/
theorem encode_and_rowMask (i : Instr) : encode i &&& i.rowMask = i.rowMatch := by
  cases i with
  | cls => exact Laws.OpcodeRow.cls
  | ret => exact Laws.OpcodeRow.ret
  | sys _ | jp _ | call _ | ldI _ | jpV0 _ => exact Laws.OpcodeRow.nnn_row _ _
  | seVxByte _ _ | sneVxByte _ _ | ldVxByte _ _ | addVxByte _ _ | rnd _ _ => exact Laws.OpcodeRow.xkk_row _ _ _
  | seVxVy _ _ | sneVxVy _ _ => exact Laws.OpcodeRow.xys_row _ _ _ _
  | ldVxVy _ _ | or _ _ | and _ _ | xor _ _ | addVxVy _ _ | sub _ _ | shr _ _ | subn _ _ | shl _ _ =>
    exact Laws.OpcodeRow.xys_row _ _ _ _
  | drw _ _ _ => exact Laws.OpcodeRow.xyn_row _ _ _ _
  | skp _ | sknp _ => exact Laws.OpcodeRow.xss_row _ _ _
  | ldVxDt _ | ldVxK _ | ldDtVx _ | ldStVx _ | addIVx _ | ldFVx _ | ldBVx _ | ldMemVx _ | ldVxMem _ =>
    exact Laws.OpcodeRow.xss_row _ _ _

/-- A word that decodes is selected by the row of its instruction. -/
theorem rowSelects_of_decodeWord (h : decodeWord w = .ok i) : i.rowSelects w = true := by
  obtain ⟨hw, -⟩ := encode_of_decodeWord h
  refine rowSelects_iff.2 ⟨hw ▸ encode_and_rowMask i, ?_⟩
  rintro nnn rfl
  constructor
  · rintro rfl; cases h
  · rintro rfl; cases h

/-! ### The fields that a mask keeps -/

theorem fieldOp_and : fieldOp (w &&& m) = fieldOp w &&& fieldOp m := BitVec.extractLsb'_and
theorem fieldN_and : fieldN (w &&& m) = fieldN w &&& fieldN m := BitVec.extractLsb'_and
theorem fieldKk_and : fieldKk (w &&& m) = fieldKk w &&& fieldKk m := BitVec.extractLsb'_and

theorem fieldOp_of_mask (h : w &&& m = t) (hm : fieldOp m = 0xF#4) : fieldOp w = fieldOp t := by
  rw [← h, fieldOp_and, hm, Laws.OpcodeRow.nibble_and_ones]

theorem fieldN_of_mask (h : w &&& m = t) (hm : fieldN m = 0xF#4) : fieldN w = fieldN t := by
  rw [← h, fieldN_and, hm, Laws.OpcodeRow.nibble_and_ones]

theorem fieldKk_of_mask (h : w &&& m = t) (hm : fieldKk m = 0xFF#8) : fieldKk w = fieldKk t := by
  rw [← h, fieldKk_and, hm, Laws.OpcodeRow.byte_and_ones]

/-! ### The decoder at a family with secondary dispatch -/

theorem decodeWord_family0 (hop : fieldOp w = 0x0#4) : decodeWord w = .ok (decodeFamily0 w) := by
  rw [decodeWord, hop]; rfl
theorem decodeWord_family8 (hop : fieldOp w = 0x8#4) : decodeWord w = decodeFamily8 w := by
  rw [decodeWord, hop]; rfl
theorem decodeWord_familyE (hop : fieldOp w = 0xE#4) : decodeWord w = decodeFamilyE w := by
  rw [decodeWord, hop]; rfl
theorem decodeWord_familyF (hop : fieldOp w = 0xF#4) : decodeWord w = decodeFamilyF w := by
  rw [decodeWord, hop]; rfl

/-- The word that a row selects decodes to an instruction of that row: its op, and where the mask keeps them its low
nibble or low byte, are those of the row's match. -/
theorem decodeWord_of_rowSelects (h : i.rowSelects w = true) :
    ∃ j, decodeWord w = .ok j ∧ j.rowMatch = i.rowMatch ∧ j.rowMask = i.rowMask := by
  obtain ⟨hrow, hsys⟩ := rowSelects_iff.1 h
  cases i with
  | cls | ret =>
    obtain rfl := (BitVec.and_allOnes (x := w)).symm.trans hrow
    exact ⟨_, rfl, rfl, rfl⟩
  | sys nnn =>
    obtain ⟨hcls, hret⟩ := hsys nnn rfl
    simp only [Instr.rowMask, Instr.rowMatch] at hrow
    rw [decodeWord_family0 (fieldOp_of_mask hrow rfl), decodeFamily0, if_neg hcls, if_neg hret]
    exact ⟨_, rfl, rfl, rfl⟩
  | jp _ | call _ | ldI _ | jpV0 _ | drw _ _ _
  | seVxByte _ _ | sneVxByte _ _ | ldVxByte _ _ | addVxByte _ _ | rnd _ _ =>
    simp only [Instr.rowMask, Instr.rowMatch] at hrow
    rw [decodeWord, fieldOp_of_mask hrow rfl]
    exact ⟨_, rfl, rfl, rfl⟩
  | seVxVy _ _ | sneVxVy _ _ =>
    simp only [Instr.rowMask, Instr.rowMatch] at hrow
    rw [decodeWord, fieldOp_of_mask hrow rfl]
    exact ⟨_, if_pos (fieldN_of_mask hrow rfl), rfl, rfl⟩
  | ldVxVy _ _ | or _ _ | and _ _ | xor _ _ | addVxVy _ _ | sub _ _ | shr _ _ | subn _ _ | shl _ _ =>
    simp only [Instr.rowMask, Instr.rowMatch] at hrow
    rw [decodeWord_family8 (fieldOp_of_mask hrow rfl), decodeFamily8, fieldN_of_mask hrow rfl]
    exact ⟨_, rfl, rfl, rfl⟩
  | skp _ | sknp _ =>
    simp only [Instr.rowMask, Instr.rowMatch] at hrow
    rw [decodeWord_familyE (fieldOp_of_mask hrow rfl), decodeFamilyE, fieldKk_of_mask hrow rfl]
    exact ⟨_, rfl, rfl, rfl⟩
  | ldVxDt _ | ldVxK _ | ldDtVx _ | ldStVx _ | addIVx _ | ldFVx _ | ldBVx _ | ldMemVx _ | ldVxMem _ =>
    simp only [Instr.rowMask, Instr.rowMatch] at hrow
    rw [decodeWord_familyF (fieldOp_of_mask hrow rfl), decodeFamilyF, fieldKk_of_mask hrow rfl]
    exact ⟨_, rfl, rfl, rfl⟩

/-- Settles O4: one direction by the encoding of the answer, the other by the fields the mask keeps. -/
theorem decoderFollowsOpcodeMap : Obligations.DecoderFollowsOpcodeMap :=
  fun _ _ => ⟨rowSelects_of_decodeWord, decodeWord_of_rowSelects⟩

end Sys2Proof
end

section
/-! The step of a word that decodes and of one that does not, with its report (30_encoding.md R76, R80,
60_exceptions.md R198). -/

namespace Sys2Proof.Machine

variable {s t : State} {w : Word} {i : Instr}

/-- Two bytes decode as the word they join to. -/
theorem decodeWord_of_decodeBytes {hi lo : Byte} {rest : List Byte} (h : decodeBytes [hi, lo] = .ok (i, rest)) :
    decodeWord (joinBytes hi lo) = .ok i := by
  rw [decodeBytes] at h
  cases hd : decodeWord (joinBytes hi lo) with
  | ok j => rw [hd] at h; cases h; rfl
  | error e => rw [hd] at h; cases h

/-- An instruction that completes is reported as such. -/
theorem stepReport_ok (hw : fetchWord s = .ok w) (hd : decodeWord w = .ok i) (h : exec i s = .next t) :
    stepReport s = .ok := by
  simp only [stepReport, hw, hd, h]

/-- An instruction that faults is reported as the fault. -/
theorem stepReport_fault {f : Fault} (hw : fetchWord s = .ok w) (hd : decodeWord w = .ok i)
    (h : exec i s = .fault f) : stepReport s = .fault f := by
  simp only [stepReport, hw, hd, h]

/-- A word that does not decode advances pc. -/
theorem step_unknown {e : DecodeError} (hw : fetchWord s = .ok w) (hd : decodeWord w = .error e) :
    step s = .next (s.advance 2) := by
  simp only [step, hw, hd, execUnknown]

/-- A word that does not decode is reported as a diagnostic. -/
theorem stepReport_diag {e : DecodeError} (hw : fetchWord s = .ok w) (hd : decodeWord w = .error e) :
    stepReport s = .diag w := by
  simp only [stepReport, hw, hd]

/-- An advance changes pc alone. -/
theorem advance_sameExcept (s : State) (k : Word) : SameExcept (· = .pc) s (s.advance k) := by
  intro p hp
  cases p with
  | pc => exact absurd rfl hp
  | _ => rfl

end Sys2Proof.Machine

namespace Sys2Proof

open Sys2Proof.Machine

/-- Settles O9: a word of R76 does not decode. -/
theorem unknownWordOnlyAdvances : Obligations.UnknownWordOnlyAdvances := by
  intro s w hw hu
  have hd := decodeWord_undefined hu
  exact ⟨stepReport_diag hw hd, _, step_unknown hw hd, rfl, advance_sameExcept s 2⟩

/-- Settles O7: the word fetched is the two bytes joined. -/
theorem stepRunsDecodedInstruction : Obligations.StepRunsDecodedInstruction := by
  intro s i hp h
  have hw := fetchWord_ok hp
  have hd := decodeWord_of_decodeBytes h
  exact ⟨step_eq_exec hw hd, fun _ => stepReport_ok hw hd, fun _ => stepReport_fault hw hd⟩

end Sys2Proof
end

section
/-! Where each class of instruction leaves pc (30_encoding.md R81). -/

namespace Sys2Proof.Machine

variable {i : Instr} {s t : State}

/-- A register that selects key k selects no other. -/
theorem exists_selected_key_iff {b : Byte} {k : Fin 16} (hk : b.toNat = k.val) (P : Fin 16 → Prop) :
    (∃ j : Fin 16, b.toNat = j.val ∧ P j) ↔ P k := by
  constructor
  · rintro ⟨j, hj, hP⟩
    rwa [Fin.ext (hk.symm.trans hj)]
  · exact fun hP => ⟨k, hk, hP⟩

/-- A skip that completes is the advance by 4 or by 2 that its condition decides. -/
theorem exec_skip (h : exec i s = .next t) (hc : pcClass i = .skip) :
    ∃ c, t = s.skipIf c ∧ (SkipHolds i s ↔ c = true) := by
  have he := exec_effect h
  cases i with
  | seVxByte _ _ | seVxVy _ _ => exact ⟨_, he, beq_iff_eq.symm⟩
  | sneVxByte _ _ | sneVxVy _ _ => exact ⟨_, he, bne_iff_ne.symm⟩
  | skp x =>
    obtain ⟨k, hk, ht⟩ := he
    exact ⟨_, ht, exists_selected_key_iff hk (s.keys[·.val] = true)⟩
  | sknp x =>
    obtain ⟨k, hk, ht⟩ := he
    exact ⟨_, ht, by rw [Bool.not_eq_true']; exact exists_selected_key_iff hk (s.keys[·.val] = false)⟩
  | _ => cases hc

/-- A skip leaves pc + 4 or pc + 2 by its condition. -/
theorem exec_skip_pc (h : exec i s = .next t) (hc : pcClass i = .skip) :
    (SkipHolds i s → t.pc = s.pc + 4) ∧ (¬ SkipHolds i s → t.pc = s.pc + 2) := by
  obtain ⟨c, rfl, hcond⟩ := exec_skip h hc
  rw [hcond]
  cases c with
  | true => exact ⟨fun _ => rfl, fun hn => absurd rfl hn⟩
  | false => exact ⟨nofun, fun _ => rfl⟩

/-- Fx0A goes on when a key is held and else leaves the state. -/
theorem exec_hold (h : exec i s = .next t) (hc : pcClass i = .hold) :
    ((∃ k : Fin 16, s.keys[k.val] = true) → t.pc = s.pc + 2) ∧
      ((∀ k : Fin 16, s.keys[k.val] = false) → t = s) := by
  have he := exec_effect h
  cases i with
  | ldVxK x =>
    rcases he with ⟨k, hk, rfl⟩ | ⟨hnone, rfl⟩
    · obtain ⟨hheld, -⟩ := firstHeldKey_some.1 hk
      exact ⟨fun _ => rfl, fun hoff => absurd (hheld.symm.trans (hoff k)) (by decide)⟩
    · have hoff := firstHeldKey_none.1 hnone
      exact ⟨fun ⟨k, hk⟩ => absurd (hk.symm.trans (hoff k)) (by decide), fun _ => rfl⟩
  | _ => cases hc

/-- A jump, a call or a return leaves pc at its target. -/
theorem exec_target_pc (h : exec i s = .next t) (hc : pcClass i = .target) : Targets i s t.pc.toNat := by
  have he := exec_effect h
  cases i with
  | sys nnn | jp nnn => cases he; exact zext16_toNat nnn
  | call nnn => obtain ⟨j, -, rfl⟩ := he; exact zext16_toNat nnn
  | jpV0 nnn => cases he; exact BitVec.toNat_ofNat _ _
  | ret => obtain ⟨j, hj, rfl⟩ := he; exact ⟨j, hj, rfl⟩
  | _ => cases hc

/-- A jump, a call or a return writes pc, sp and the call stack at most. -/
theorem exec_target_eq (h : exec i s = .next t) (hc : pcClass i = .target) :
    t = { s with pc := t.pc, sp := t.sp, stack := t.stack } := by
  have he := exec_effect h
  cases i with
  | sys _ | jp _ | jpV0 _ => cases he; rfl
  | call nnn | ret => obtain ⟨j, -, rfl⟩ := he; rfl
  | _ => cases hc

/-- A jump, a call or a return changes nothing but pc, sp and call-stack slots. -/
theorem exec_target_sameExcept (h : exec i s = .next t) (hc : pcClass i = .target) :
    SameExcept (fun p => p = .pc ∨ p = .sp ∨ ∃ j, p = .slot j) s t := by
  rw [exec_target_eq h hc]
  intro p hp
  cases p with
  | pc => exact absurd (.inl rfl) hp
  | sp => exact absurd (.inr (.inl rfl)) hp
  | slot j => exact absurd (.inr (.inr ⟨j, rfl⟩)) hp
  | _ => rfl

end Sys2Proof.Machine

namespace Sys2Proof

open Sys2Proof.Machine

/-- Settles O11, class by class. -/
theorem pcUpdateFollowsClass : Obligations.PcUpdateFollowsClass := by
  intro i s t h
  cases hc : pcClass i with
  | postlude => exact exec_postlude_pc h hc
  | skip => exact exec_skip_pc h hc
  | hold => exact exec_hold h hc
  | target => exact ⟨exec_target_pc h hc, exec_target_sameExcept h hc⟩

end Sys2Proof
end

section
/-! Control transfer and skips: encodings, targets and frames (40_control_flow.md R100 to R108). -/

namespace Sys2Proof.Machine

variable {i : Instr} {s t u : State}

/-! ### Encodings by format (R72) -/

/-- Format NNN: the word is the op's base plus nnn. -/
theorem encodedAs_nnn {op : Nibble} {nnn : Addr} {base : Nat} (hi : i.wellFormed = true)
    (he : encode i = encodeNnn op nnn) (hb : op.toNat * 4096 = base) : EncodedAs i (base + nnn.toNat) :=
  ⟨by rw [he, encodeNnn_toNat, hb], decodeWord_encode hi⟩

/-- Format XKK: the word is the op's base plus x and kk at their places. -/
theorem encodedAs_xkk {op : Nibble} {x : Reg} {kk : Byte} {base : Nat} (hi : i.wellFormed = true)
    (he : encode i = encodeXkk op x kk) (hb : op.toNat * 4096 = base) :
    EncodedAs i (base + 0x100 * x.val + kk.toNat) :=
  ⟨by rw [he, encodeXkk_toNat, hb, Nat.mul_comm x.val], decodeWord_encode hi⟩

/-- Every word of family 0x0 but those of CLS and RET is SYS (R101). -/
theorem encodedAs_sys {nnn : Addr} (hcls : nnn ≠ 0x0E0) (hret : nnn ≠ 0x0EE) : EncodedAs (.sys nnn) nnn.toNat := by
  have hwf : (Instr.sys nnn).wellFormed = true := by simpa [Instr.wellFormed] using ⟨hcls, hret⟩
  simpa using encodedAs_nnn (base := 0) hwf rfl rfl

/-! ### Frames -/

/-- What two transitions in a row leave unchanged. -/
theorem SameExcept.trans {c d : Piece → Prop} (hc : SameExcept c s t) (hd : SameExcept d t u) :
    SameExcept (fun p => c p ∨ d p) s u := by
  intro p hp
  obtain ⟨hpc, hpd⟩ := not_or.1 hp
  exact (hd p hpd).trans (hc p hpc)

/-- A piece that was changed and then restored need not be listed. -/
theorem SameExcept.of_restored {c d : Piece → Prop} (hc : SameExcept c s t)
    (hr : ∀ p, c p → ¬ d p → p.value t = p.value s) : SameExcept d s t := by
  intro p hpd
  by_cases hpc : c p
  · exact hr p hpc hpd
  · exact hc p hpc

/-- More pieces may be listed. -/
theorem SameExcept.mono {c d : Piece → Prop} (hc : SameExcept c s t) (hcd : ∀ p, c p → d p) : SameExcept d s t :=
  fun p hpd => hc p (mt (hcd p) hpd)

/-- A jump changes pc alone. -/
theorem setPc_sameExcept (s : State) (w : Word) : SameExcept (· = .pc) s (s.setPc w) := by
  intro p hp
  cases p with
  | pc => exact absurd rfl hp
  | _ => rfl

/-- A new sp changes sp alone. -/
theorem setSp_sameExcept (s : State) (k : Fin 17) : SameExcept (· = .sp) s (s.setSp k) := by
  intro p hp
  cases p with
  | sp => exact absurd rfl hp
  | _ => rfl

/-- A write of a call-stack slot changes that slot alone. -/
theorem setSlot_sameExcept (s : State) (j : Fin 16) (w : Word) : SameExcept (· = .slot j) s (s.setSlot j w) := by
  intro p hp
  cases p with
  | slot q =>
    have hq : q ≠ j := fun e => hp (congrArg Piece.slot e)
    simp [Piece.value, hq]
  | _ => rfl

/-- A call changes pc, sp and the slot it pushes. -/
theorem call_sameExcept (s : State) (j : Fin 16) (a w : Word) (k : Fin 17) :
    SameExcept (fun p => p = .pc ∨ p = .sp ∨ p = .slot j) s (((s.setSlot j a).setSp k).setPc w) := by
  refine (((setSlot_sameExcept s j a).trans (setSp_sameExcept _ k)).trans (setPc_sameExcept _ w)).mono fun p hp => ?_
  tauto

/-- A return changes pc and sp. -/
theorem ret_sameExcept (s : State) (k : Fin 17) (w : Word) :
    SameExcept (fun p => p = .pc ∨ p = .sp) s ((s.setSp k).setPc w) :=
  ((setSp_sameExcept s k).trans (setPc_sameExcept _ w)).mono fun _ => Or.symm

/-! ### Targets -/

/-- The address after an instruction, as a number (R23). -/
theorem pc_add_two_toNat (pc : Word) : (pc + 2).toNat = (pc.toNat + 2) % 65536 := BitVec.toNat_add pc 2

/-- A jump above 0xFFE makes the next fetch fault. -/
theorem step_setPc_fetchRange {w : Word} (h : 0xFFE < w.toNat) : step (s.setPc w) = .fault (.fetchRange w.toNat) :=
  step_fetchRange (by rw [setPc_pc]; omega)

/-- V0 + nnn, exact, is at most 0xFF + 0xFFF (R104). -/
theorem byte_add_nnn_le (b : Byte) (nnn : Addr) : b.toNat + nnn.toNat ≤ 0x10FE := by
  have := b.isLt
  have := nnn.isLt
  omega

/-- The target of Bnnn is the exact sum. -/
theorem jpV0_target_toNat (b : Byte) (nnn : Addr) :
    (BitVec.ofNat 16 (b.toNat + nnn.toNat)).toNat = b.toNat + nnn.toNat := by
  have := byte_add_nnn_le b nnn
  rw [BitVec.toNat_ofNat, Nat.mod_eq_of_lt (by omega)]

/-! ### Skips -/

/-- A skip that completes changes pc alone, by its condition. -/
theorem exec_skip_spec (h : exec i s = .next t) (hc : pcClass i = .skip) :
    ∃ u, exec i s = .next u ∧ SameExcept (· = .pc) s u ∧
      (SkipHolds i s → u.pc = s.pc + 4) ∧ (¬ SkipHolds i s → u.pc = s.pc + 2) := by
  refine ⟨t, h, ?_, exec_skip_pc h hc⟩
  obtain ⟨c, rfl, -⟩ := exec_skip h hc
  exact advance_sameExcept s _

end Sys2Proof.Machine

namespace Sys2Proof

open Sys2Proof.Machine

/-- Settles O30: the push goes to the slot at sp, and a full stack has none. -/
theorem callPushesReturnAddress : Obligations.CallPushesReturnAddress := by
  intro s nnn
  refine ⟨fun h => ⟨_, execCall_ok nnn ⟨s.sp.val, h⟩ rfl, ?_, rfl, zext16_toNat nnn, call_sameExcept s _ _ _ _⟩,
    execCall_fault nnn⟩
  rw [setPc_slot, setSp_slot, setSlot_slot, if_pos rfl, pc_add_two_toNat]

/-- Settles O31: the pop reads the slot below sp, and an empty stack has none. -/
theorem returnPopsReturnAddress : Obligations.ReturnPopsReturnAddress :=
  fun s => ⟨fun j h => ⟨_, execRet_ok j h, rfl, rfl, ret_sameExcept s _ _⟩, execRet_fault⟩

/-- Settles O32: the return pops the slot that the call pushed, so sp, which both change, is restored. -/
theorem callThenReturnRestores : Obligations.CallThenReturnRestores := by
  intro s nnn h
  obtain ⟨t, hcall, hslot, hsp, -, hframe⟩ := (callPushesReturnAddress s nnn).1 h
  obtain ⟨u, hret, hsp', hpc, hframe'⟩ := (returnPopsReturnAddress t).1 ⟨s.sp.val, h⟩ hsp
  refine ⟨t, u, hcall, hret, ?_, Fin.ext hsp', (hframe.trans hframe').of_restored fun p hp hn => ?_⟩
  · rw [hpc]
    exact BitVec.eq_of_toNat_eq (hslot.trans (pc_add_two_toNat s.pc).symm)
  · obtain rfl : p = .sp := by tauto
    exact hsp'

/-- Settles O28: each jump is a write of pc, and writing what pc holds is no change. -/
theorem jumpsSetPc : Obligations.JumpsSetPc := by
  intro s nnn
  refine ⟨encodedAs_sys, ⟨_, rfl, zext16_toNat nnn, setPc_sameExcept s _⟩, encodedAs_nnn rfl rfl rfl,
    ⟨_, rfl, zext16_toNat nnn, setPc_sameExcept s _, fun h => ?_⟩, fun h => ?_⟩
  · have hw : (zext16 nnn).toNat = 0xFFF := (zext16_toNat nnn).trans h
    rw [step_setPc_fetchRange (by omega), hw]
  · have hw : zext16 nnn = s.pc := BitVec.eq_of_toNat_eq ((zext16_toNat nnn).trans h.symm)
    exact congrArg (fun w => Host.Outcome.next (s.setPc w)) hw

/-- Settles O29: the sum fits 16 bits, so the target is exact and reported as it is. -/
theorem jumpWithOffsetAddsV0 : Obligations.JumpWithOffsetAddsV0 := by
  intro s nnn
  have hw := jpV0_target_toNat (s.reg 0) nnn
  refine ⟨encodedAs_nnn rfl rfl rfl, byte_add_nnn_le _ _, _, rfl, BitVec.toNat_ofNat _ _, setPc_sameExcept s _,
    fun h => ?_⟩
  rw [step_setPc_fetchRange (hw.symm ▸ h), hw]

/-- Settles O33: the skips' conditions are those of `SkipHolds`. -/
theorem skipOnByteCompare : Obligations.SkipOnByteCompare := by
  intro s x kk
  refine ⟨encodedAs_xkk rfl rfl rfl, encodedAs_xkk rfl rfl rfl, exec_skip_spec rfl rfl, ?_⟩
  simpa only [SkipHolds, not_not] using exec_skip_spec (i := .sneVxByte x kk) (s := s) rfl rfl

/-- Settles O34: the skips' conditions are those of `SkipHolds`. -/
theorem skipOnRegisterCompare : Obligations.SkipOnRegisterCompare := by
  intro s x y
  refine ⟨exec_skip_spec rfl rfl, ?_⟩
  simpa only [SkipHolds, not_not] using exec_skip_spec (i := .sneVxVy x y) (s := s) rfl rfl

end Sys2Proof
end

section
/-! The registers and the ALU: what a write of V and of the flag leaves, and the instructions' results as the natural
numbers of 41_alu.md (R120 to R134). -/

namespace Sys2Proof.Machine

variable {i : Instr} {x y : Reg}

/-! ### Encodings by format (R72) -/

/-- Format XYN: the word is the op's and n's base plus x and y at their places. -/
theorem encodedAs_xyn {op n : Nibble} {base : Nat} (hi : i.wellFormed = true) (he : encode i = encodeXyn op x y n)
    (hb : op.toNat * 4096 + n.toNat = base) : EncodedAs i (base + 0x100 * x.val + 0x10 * y.val) :=
  ⟨by rw [he, encodeXyn_toNat, ← hb]; ring, decodeWord_encode hi⟩

/-! ### Frames -/

/-- A write of V[x] changes V[x] alone. -/
theorem setReg_sameExcept (s : State) (x : Reg) (b : Byte) : SameExcept (· = .reg x) s (s.setReg x b) := by
  intro p hp
  cases p with
  | reg q =>
    have hq : q ≠ x := fun e => hp (congrArg Piece.reg e)
    simp [Piece.value, hq]
  | _ => rfl

/-- A draw changes the count of draws alone. -/
theorem drawRnd_sameExcept (s : State) : SameExcept (· = .draws) s s.drawRnd.2 := by
  intro p hp
  cases p with
  | draws => exact absurd rfl hp
  | _ => rfl

/-- An instruction that writes V[x] changes V[x] and pc. -/
theorem setReg_advance_sameExcept (s : State) (x : Reg) (b : Byte) (k : Word) :
    SameExcept (fun p => p = .pc ∨ p = .reg x) s ((s.setReg x b).advance k) :=
  ((setReg_sameExcept s x b).trans (advance_sameExcept _ k)).mono fun _ => Or.symm

/-- An instruction that writes two registers changes them and pc. -/
theorem setReg_setReg_advance_sameExcept (s : State) (x y : Reg) (b c : Byte) (k : Word) :
    SameExcept (fun p => p = .pc ∨ p = .reg y ∨ p = .reg x) s (((s.setReg x b).setReg y c).advance k) := by
  refine ((setReg_sameExcept s x b).trans (setReg_advance_sameExcept _ y c k)).mono fun p hp => ?_
  tauto

/-! ### Registers written -/

/-- V[x] after its write. -/
theorem setReg_reg_self (s : State) (x : Reg) (b : Byte) : (s.setReg x b).reg x = b := by
  rw [setReg_reg, if_pos rfl]

/-- VF after a write of the flag. -/
theorem setFlag_reg_vF (s : State) (f : Byte) : (s.setFlag f).reg vF = f := setReg_reg_self s vF f

/-- A register other than VF after a write of the flag. -/
theorem setFlag_reg_other (s : State) (f : Byte) (hx : x ≠ vF) : (s.setFlag f).reg x = s.reg x := by
  rw [setFlag_reg, if_neg hx]

/-! ### Immediate loads and sums (R120, R121) -/

/-- 6xkk: V[x] = kk. -/
theorem exec_ldVxByte_spec (s : State) (x : Reg) (kk : Byte) :
    ∃ t, exec (.ldVxByte x kk) s = .next t ∧ t.reg x = kk ∧ t.pc = s.pc + 2 ∧
      SameExcept (fun p => p = .pc ∨ p = .reg x) s t :=
  ⟨_, rfl, setReg_reg_self s x kk, rfl, setReg_advance_sameExcept s x _ 2⟩

/-- 7xkk: V[x] + kk mod 256, and no flag. -/
theorem exec_addVxByte_spec (s : State) (x : Reg) (kk : Byte) :
    ∃ t, exec (.addVxByte x kk) s = .next t ∧ (t.reg x).toNat = ((s.reg x).toNat + kk.toNat) % 256 ∧
      t.pc = s.pc + 2 ∧ SameExcept (fun p => p = .pc ∨ p = .reg x) s t := by
  refine ⟨_, rfl, ?_, rfl, setReg_advance_sameExcept s x _ 2⟩
  rw [advance_reg, setReg_reg_self, BitVec.toNat_add]

/-! ### The flag first, then the result (R127 to R130, R132, R133) -/

/-- The state after an instruction that writes the flag f and then V[x] = g(V[x], V[y]) of the registers after that. -/
def flagFirst (f : Byte) (g : Byte → Byte → Byte) (x y : Reg) (s : State) : State :=
  let t := s.setFlag f
  (t.setReg x (g (t.reg x) (t.reg y))).advance 2

/-- 8xy5: the flag, then V[x] - V[y]. -/
theorem exec_sub_eq (s : State) (x y : Reg) :
    exec (.sub x y) s = .next (flagFirst (noBorrowFlag (s.reg x) (s.reg y)) (fun a b => a - b) x y s) := rfl

/-- 8xy7: the flag, then V[y] - V[x]. -/
theorem exec_subn_eq (s : State) (x y : Reg) :
    exec (.subn x y) s = .next (flagFirst (noBorrowFlag (s.reg y) (s.reg x)) (fun a b => b - a) x y s) := rfl

/-- 8xy6: the bit shifted out, then V[x] shifted right. -/
theorem exec_shr_eq (s : State) (x y : Reg) :
    exec (.shr x y) s = .next (flagFirst (shiftedOutRight (s.reg x)) (fun a _ => a >>> 1) x y s) := rfl

/-- 8xyE: the bit shifted out, then V[x] shifted left. -/
theorem exec_shl_eq (s : State) (x y : Reg) :
    exec (.shl x y) s = .next (flagFirst (shiftedOutLeft (s.reg x)) (fun a _ => a <<< 1) x y s) := rfl

section

variable (s : State) (f : Byte) (g : Byte → Byte → Byte) (x y : Reg)

/-- Only pc, the result's register and VF change. -/
theorem flagFirst_sameExcept :
    SameExcept (fun p => p = .pc ∨ p = .reg x ∨ p = .reg vF) s (flagFirst f g x y s) :=
  setReg_setReg_advance_sameExcept s vF x f _ 2

/-- The result is of the operands, with the flag for an operand that is VF. -/
theorem flagFirst_reg_self :
    (flagFirst f g x y s).reg x = g (if x = vF then f else s.reg x) (if y = vF then f else s.reg y) := by
  rw [flagFirst, advance_reg, setReg_reg_self, setFlag_reg, setFlag_reg]

/-- The flag stays in VF when the result goes elsewhere. -/
theorem flagFirst_reg_vF (hx : x ≠ vF) : (flagFirst f g x y s).reg vF = f := by
  rw [flagFirst, advance_reg, setReg_reg, if_neg hx.symm, setFlag_reg_vF]

/-- VF and V[x] in every aliasing of x and y with VF (R133). -/
theorem flagFirst_aliasings :
    (x ≠ vF → (flagFirst f g x y s).reg vF = f) ∧
    (x ≠ vF → y ≠ vF → (flagFirst f g x y s).reg x = g (s.reg x) (s.reg y)) ∧
    (x = vF → y ≠ vF → (flagFirst f g x y s).reg vF = g f (s.reg y)) ∧
    (x ≠ vF → y = vF → (flagFirst f g x y s).reg x = g (s.reg x) f) ∧
    (x = vF → y = vF → (flagFirst f g x y s).reg vF = g f f) := by
  refine ⟨flagFirst_reg_vF s f g x y, fun hx hy => ?_, ?_, ?_, ?_⟩
  · rw [flagFirst_reg_self, if_neg hx, if_neg hy]
  · rintro rfl hy
    rw [flagFirst_reg_self, if_pos rfl, if_neg hy]
  · rintro hx rfl
    rw [flagFirst_reg_self, if_neg hx, if_pos rfl]
  · rintro rfl rfl
    rw [flagFirst_reg_self, if_pos rfl]

end

end Sys2Proof.Machine

namespace Sys2Proof

open Sys2Proof.Machine

/-- Settles O37: the flag is written last, so it stands for x = 0xF too. -/
theorem addSetsCarry : Obligations.AddSetsCarry := by
  intro s x y
  refine ⟨encodedAs_xyn rfl rfl rfl, _, rfl, rfl, ?_, fun hx => ?_,
    (setReg_setReg_advance_sameExcept s x vF _ _ 2).mono fun _ => Or.imp_right Or.symm⟩
  · rw [advance_reg, setFlag_reg_vF, carryFlag_toNat]
  · rw [advance_reg, setFlag_reg_other _ _ hx, setReg_reg_self, BitVec.toNat_ofNat]

/-- Settles O38: the aliasings of R133 for the difference; a flag less itself is 0. -/
theorem subtractSetsNoBorrow : Obligations.SubtractSetsNoBorrow := by
  intro s x y
  refine ⟨_, exec_sub_eq s x y, rfl, flagFirst_sameExcept s _ _ x y, ?_⟩
  rintro _ rfl
  obtain ⟨hflag, hnone, hx, hy, hboth⟩ :=
    flagFirst_aliasings s (noBorrowFlag (s.reg x) (s.reg y)) (fun a b => a - b) x y
  simp only [← noBorrowFlag_toNat, ← byteSub_toNat, BitVec.toNat_inj]
  refine ⟨hflag, hnone, hx, hy, fun hxF hyF => ?_⟩
  rw [hboth hxF hyF, BitVec.sub_self]; rfl

/-- Settles O39: the aliasings of R133 for the reverse difference; a flag less itself is 0. -/
theorem reverseSubtractSetsNoBorrow : Obligations.ReverseSubtractSetsNoBorrow := by
  intro s x y
  refine ⟨_, exec_subn_eq s x y, rfl, flagFirst_sameExcept s _ _ x y, ?_⟩
  rintro _ rfl
  obtain ⟨hflag, hnone, hx, hy, hboth⟩ :=
    flagFirst_aliasings s (noBorrowFlag (s.reg y) (s.reg x)) (fun a b => b - a) x y
  simp only [← noBorrowFlag_toNat, ← byteSub_toNat, BitVec.toNat_inj]
  refine ⟨hflag, hnone, hx, hy, fun hxF hyF => ?_⟩
  rw [hboth hxF hyF, BitVec.sub_self]; rfl

/-- Settles O40: with x = 0xF it is the flag that is shifted, a single bit. -/
theorem shiftsSetBitShiftedOut : Obligations.ShiftsSetBitShiftedOut := by
  intro s x y
  refine ⟨⟨_, exec_shr_eq s x y, rfl, flagFirst_sameExcept s _ _ x y, fun hx => ⟨?_, ?_⟩, ?_⟩,
    ⟨_, exec_shl_eq s x y, rfl, flagFirst_sameExcept s _ _ x y, fun hx => ⟨?_, ?_⟩, ?_⟩⟩
  · rw [flagFirst_reg_vF _ _ _ _ _ hx, shiftedOutRight_toNat]
  · rw [flagFirst_reg_self, if_neg hx, byteShr_toNat]
  · rintro rfl
    rw [flagFirst_reg_self, if_pos rfl, byteShr_toNat, shiftedOutRight_toNat]
    omega
  · rw [flagFirst_reg_vF _ _ _ _ _ hx, shiftedOutLeft_toNat]
  · rw [flagFirst_reg_self, if_neg hx, byteShl_toNat]
  · rintro rfl
    have := (s.reg vF).isLt
    rw [flagFirst_reg_self, if_pos rfl, byteShl_toNat, shiftedOutLeft_toNat]
    split <;> omega

/-- Settles O35: the second of two immediates is added to what the first left. -/
theorem loadAndAddImmediate : Obligations.LoadAndAddImmediate := by
  intro s x y kk kk2
  obtain ⟨t, hload, hx, hpc, hframe⟩ := exec_ldVxByte_spec s x kk
  obtain ⟨u, hadd, hsum, -⟩ := exec_addVxByte_spec t x kk2
  refine ⟨encodedAs_xkk rfl rfl rfl, encodedAs_xkk rfl rfl rfl, encodedAs_xyn rfl rfl rfl,
    ⟨t, hload, hx, hpc, hframe⟩, exec_addVxByte_spec s x kk, ?_, t, u, hload, hadd, hx ▸ hsum⟩
  exact ⟨_, rfl, setReg_reg_self s x _, rfl, setReg_advance_sameExcept s x _ 2⟩

/-- Settles O36: each is one write of V[x], so the frame has no flag. -/
theorem logicOperationsWriteNoFlag : Obligations.LogicOperationsWriteNoFlag := by
  intro s x y
  refine ⟨encodedAs_xyn rfl rfl rfl, encodedAs_xyn rfl rfl rfl, encodedAs_xyn rfl rfl rfl,
    ⟨_, rfl, rfl, setReg_advance_sameExcept s x _ 2, fun k => ?_⟩,
    ⟨_, rfl, rfl, setReg_advance_sameExcept s x _ 2, fun k => ?_⟩,
    ⟨_, rfl, rfl, setReg_advance_sameExcept s x _ 2, fun k => ?_⟩⟩
  · rw [advance_reg, setReg_reg_self, BitVec.getLsbD_or]
  · rw [advance_reg, setReg_reg_self, BitVec.getLsbD_and]
  · rw [advance_reg, setReg_reg_self, BitVec.getLsbD_xor]

/-- Settles O41: exec is the instruction on the state after the draw, with the byte drawn. -/
theorem randomIsMaskedFreeByte : Obligations.RandomIsMaskedFreeByte := by
  intro s x kk
  refine ⟨fun r => ⟨_, rfl, setReg_reg_self s x _, rfl, setReg_advance_sameExcept s x _ 2⟩,
    _, rfl, setReg_reg_self s.drawRnd.2 x _, rfl, rfl,
    ((drawRnd_sameExcept s).trans (setReg_advance_sameExcept _ x _ 2)).mono fun p hp => ?_⟩
  tauto

end Sys2Proof
end

section
/-! The index register and memory: what a write of I, a store of bytes and a load of registers leave unchanged, and the
effects of the range-checked instructions (42_index_memory.md R140 to R146). -/

namespace Sys2Proof.Machine

variable {s : State} {x : Reg}

/-! ### Encodings by format (R72) -/

/-- Format XSS: the word is the op's and the sub-opcode's base plus x at its place. -/
theorem encodedAs_xss {i : Instr} {op : Nibble} {kk : Byte} {base : Nat} (hi : i.wellFormed = true)
    (he : encode i = encodeXkk op x kk) (hb : op.toNat * 4096 + kk.toNat = base) :
    EncodedAs i (base + 0x100 * x.val) :=
  ⟨by rw [he, encodeXkk_toNat, ← hb]; ring, decodeWord_encode hi⟩

/-! ### Frames -/

/-- A write of I changes I alone. -/
theorem setI_sameExcept (s : State) (w : Word) : SameExcept (· = .index) s (s.setI w) := by
  intro p hp
  cases p with
  | index => exact absurd rfl hp
  | _ => rfl

/-- A load of registers changes the registers loaded and no other piece of the state. -/
theorem loadRegs_sameExcept (s : State) (a : Nat) (x : Reg) :
    SameExcept (fun p => ∃ r, r ≤ x ∧ p = .reg r) s (s.loadRegs a x) := by
  intro p hp
  cases p with
  | reg q =>
    have hq : ¬ q ≤ x := fun hle => hp ⟨q, hle, rfl⟩
    simp [Piece.value, hq]
  | _ => simp [Piece.value]

/-- The default postlude adds pc to the pieces that a transition changes. -/
theorem SameExcept.advance {c : Piece → Prop} {t : State} (hc : SameExcept c s t) (k : Word) :
    SameExcept (fun p => p = .pc ∨ c p) s (t.advance k) :=
  (hc.trans (advance_sameExcept t k)).mono fun _ => Or.symm

/-! ### The range-checked instructions when their addresses are in range (R143 to R145) -/

/-- Fx33 stores the digits of V[x] at I. -/
theorem exec_ldBVx_ok (h : s.i.toNat + 2 ≤ 0xFFF) :
    exec (.ldBVx x) s = .next ((s.storeBytes s.i.toNat (bcdDigits (s.reg x))).advance 2) :=
  withDataRange_ok (.inr (Nat.succ_le_succ h))

/-- Fx55 stores V0 to V[x] at I. -/
theorem exec_ldMemVx_ok (h : s.i.toNat + x.val ≤ 0xFFF) :
    exec (.ldMemVx x) s = .next ((s.storeBytes s.i.toNat (s.regBytes x)).advance 2) :=
  withDataRange_ok (.inr (Nat.succ_le_succ h))

/-- Fx65 loads V0 to V[x] from I. -/
theorem exec_ldVxMem_ok (h : s.i.toNat + x.val ≤ 0xFFF) :
    exec (.ldVxMem x) s = .next ((s.loadRegs s.i.toNat x).advance 2) :=
  withDataRange_ok (.inr (Nat.succ_le_succ h))

/-! ### The bytes stored -/

/-- The digits are exact: each is below 10, so it fits its byte. -/
theorem bcdDigits_toNat (b : Byte) :
    (bcdDigits b).map BitVec.toNat = [b.toNat / 100, b.toNat / 10 % 10, b.toNat % 10] := by
  have := b.isLt
  simp only [bcdDigits, List.map_cons, List.map_nil, BitVec.toNat_ofNat, List.cons.injEq, and_true]
  omega

/-- Digit k of V[x], stored at a, is read back at a + k. -/
theorem readByte_storeBytes_bcdDigits {a k : Nat} {b : Byte} (hm : Memory.wf s.params.font s.mem)
    (h : a + 2 ≤ 0xFFF) (hk : k < 3) :
    ((s.storeBytes a (bcdDigits b)).readByte (a + k)).toNat =
      [b.toNat / 100, b.toNat / 10 % 10, b.toNat % 10][k] := by
  have hin : a + (bcdDigits b).length ≤ memSize := Nat.succ_le_succ h
  rw [readByte_storeBytes_same hm hin hk]
  exact (List.getElem_map BitVec.toNat).symm.trans (List.getElem_of_eq (bcdDigits_toNat b) hk)

/-- V[r], stored with V0 to V[x] at a, is read back at a + r. -/
theorem readByte_storeBytes_regBytes {a : Nat} {r : Reg} (hm : Memory.wf s.params.font s.mem)
    (h : a + x.val ≤ 0xFFF) (hr : r ≤ x) :
    (s.storeBytes a (s.regBytes x)).readByte (a + r.val) = s.reg r := by
  have hlen : (s.regBytes x).length = x.val + 1 := length_regBytes x
  have hr' : r.val < (s.regBytes x).length := by rw [hlen]; exact Nat.lt_succ_of_le hr
  rw [readByte_storeBytes_same hm (by rw [hlen]; exact Nat.succ_le_succ h) hr', getElem_regBytes]

end Sys2Proof.Machine

namespace Sys2Proof

open Sys2Proof.Machine

/-- Settles O44: the three bytes stored are the digits, and the frame is that of the store. -/
theorem decimalDigitsStored : Obligations.DecimalDigitsStored := by
  intro s x hs hi
  have hdigit {k : Nat} (hk : k < 3) :=
    readByte_storeBytes_bcdDigits (b := s.reg x) hs.memCanonical hi hk
  exact ⟨_, exec_ldBVx_ok hi, by rw [advance_pc, storeBytes_pc],
    hdigit (k := 0) (by decide), hdigit (k := 1) (by decide), hdigit (k := 2) (by decide),
    (storeBytes_sameExcept s s.i.toNat (bcdDigits (s.reg x))).advance 2⟩

/-- Settles O45: each register's byte is read back, and the frame is that of the store. -/
theorem registersStored : Obligations.RegistersStored := by
  intro s x hs hx
  refine ⟨_, exec_ldMemVx_ok hx, by rw [advance_pc, storeBytes_pc],
    fun r hr => readByte_storeBytes_regBytes hs.memCanonical hx hr, ?_⟩
  simpa only [length_regBytes, Nat.lt_succ_iff] using
    (storeBytes_sameExcept s s.i.toNat (s.regBytes x)).advance 2

/-- Settles O46: the registers up to x take their bytes, and the frame is that of the load. -/
theorem registersLoaded : Obligations.RegistersLoaded := by
  intro s x hx
  refine ⟨_, exec_ldVxMem_ok hx, by rw [advance_pc, loadRegs_pc], fun r hr => ?_,
    (loadRegs_sameExcept s _ x).advance 2⟩
  rw [advance_reg, loadRegs_reg, if_pos hr]

/-- Settles O47: the store leaves I, so the load reads the bytes stored, whatever V holds in between. -/
theorem storeThenLoadRestores : Obligations.StoreThenLoadRestores := by
  intro s x v hs hx
  obtain ⟨t, hstore, -, hstored, hkeptByStore⟩ := registersStored s x hs hx
  have hi : t.i.toNat = s.i.toNat := hkeptByStore .index (by simp)
  obtain ⟨u, hload, -, hloaded, hkeptByLoad⟩ := registersLoaded { t with v := v } x (hi ▸ hx)
  refine ⟨t, u, hstore, hload, fun r hr => ?_, fun r hr => BitVec.eq_of_toNat_eq (hkeptByLoad (.reg r) ?_)⟩
  · calc u.reg r = t.readByte (t.i.toNat + r.val) := hloaded r hr
      _ = t.readByte (s.i.toNat + r.val) := by rw [hi]
      _ = s.reg r := hstored r hr
  · simpa using hr

/-- Settles O42: each is one write of I, so the frame has no flag. -/
theorem indexLoadAndAdd : Obligations.IndexLoadAndAdd := by
  intro s nnn x
  refine ⟨encodedAs_nnn rfl rfl rfl, encodedAs_xss rfl rfl rfl,
    ⟨_, rfl, ?_, rfl, (setI_sameExcept s _).advance 2⟩,
    ⟨_, rfl, BitVec.toNat_ofNat .., rfl, (setI_sameExcept s _).advance 2⟩⟩
  exact BitVec.toNat_setWidth_of_le (by decide)

/-- Settles O43: the address is at most 1275, so it is in range and fits I. -/
theorem glyphAddressInBothModes : Obligations.GlyphAddressInBothModes := by
  intro s x
  refine ⟨_, execLdFVx_eq x s, rfl, (setI_sameExcept s _).advance 2, fun hc => ?_, fun hc => ?_⟩
  · have := (s.reg x).isLt
    rw [advance_i, setI_i, hc, if_neg Bool.false_ne_true, BitVec.toNat_ofNat, glyphAddr]
    omega
  · rw [advance_i, setI_i, hc, if_pos rfl, BitVec.toNat_setWidth_of_le (by decide), glyphAddr]

end Sys2Proof
end

section
/-! The display: what 00E0 and Dxyn leave unchanged, and Dxyn as the set of cells its sprite covers
(43_display.md R160 to R164). -/

namespace Sys2Proof.Machine

variable {s t : State} {x y : Reg} {n : Nibble}

/-! ### Frames -/

/-- A write of the framebuffer changes cells alone. -/
theorem setFb_sameExcept (s : State) (fb : Framebuffer) :
    SameExcept (fun p => ∃ cy cx, p = .cell cy cx) s (s.setFb fb) := by
  intro p hp
  cases p with
  | cell cy cx => exact absurd ⟨cy, cx, rfl⟩ hp
  | _ => rfl

/-- Dxyn changes pc, VF and cells. -/
theorem exec_drw_sameExcept (h : exec (.drw x y n) s = .next t) :
    SameExcept (fun p => p = .pc ∨ p = .reg vF ∨ ∃ cy cx, p = .cell cy cx) s t := by
  obtain ⟨-, fb, hit, -, rfl⟩ := exec_effect h
  exact (((setFb_sameExcept s fb).trans (setReg_sameExcept _ vF _)).mono fun _ => Or.symm).advance 2

/-! ### Dxyn as a set of cells (R163) -/

/-- The cells that the sprite bits 1 of Dxyn land on, at V[x] and V[y] as they are before it (R161, decision D11). -/
abbrev DrwCovers (s : State) (x y : Reg) (n : Nibble) : Fin 32 → Fin 64 → Prop :=
  SpriteCovers s (s.reg x).toNat (s.reg y).toNat s.i.toNat n.toNat

/-- Dxyn with its sprite in memory completes. -/
theorem exec_drw_completes (h : n.toNat = 0 ∨ s.i.toNat + n.toNat - 1 ≤ 0xFFF) :
    ∃ t, exec (.drw x y n) s = .next t := by
  obtain ⟨_, _, -, hexec⟩ := execDrw_ok (s := s) x y n (by omega)
  exact ⟨_, hexec⟩

/-- A Dxyn that completes draws on the cells it covers, and VF holds the collision. -/
theorem exec_drw_draws (h : exec (.drw x y n) s = .next t) :
    ∃ hit, t.reg vF = flagByte hit ∧ Draws (DrwCovers s x y n) (s.fb, false) (t.fb, hit) := by
  obtain ⟨-, fb, hit, hd, rfl⟩ := exec_effect h
  exact ⟨hit, setFlag_reg_vF _ _, hd⟩

/-- A flag is 1 or 0, as a number. -/
theorem flagByte_toNat_cases (c : Bool) : (flagByte c).toNat = 1 ∨ (flagByte c).toNat = 0 := by
  cases c
  · exact .inr rfl
  · exact .inl rfl

/-- The flag of a draw is 1 exactly when a cell drawn on was on. -/
theorem Draws.flagByte_toNat_eq_one_iff {C : Fin 32 → Fin 64 → Prop} {fb fb' : Framebuffer} {hit : Bool}
    (hd : Draws C (fb, false) (fb', hit)) :
    (flagByte hit).toNat = 1 ↔ ∃ cy cx, C cy cx ∧ fb.cell cy cx = true := by
  have hhit : hit = true ↔ ∃ cy cx, C cy cx ∧ fb.cell cy cx = true := by simpa using hd.hit
  rw [← hhit]
  cases hit <;> decide

/-- Drawing on the same cells twice restores every cell (R164). -/
theorem Draws.cell_twice {C : Fin 32 → Fin 64 → Prop} {p q q' r : Framebuffer × Bool} (h : Draws C p q)
    (h' : Draws C q' r) (hq : q'.1 = q.1) (cy : Fin 32) (cx : Fin 64) : r.1.cell cy cx = p.1.cell cy cx := by
  by_cases hc : C cy cx
  · rw [h'.toggled cy cx hc, hq, h.toggled cy cx hc, Bool.not_not]
  · rw [h'.kept cy cx hc, hq, h.kept cy cx hc]

/-- A Dxyn whose x and y are not VF leaves the cells it covers the same: neither its operands nor its sprite change. -/
theorem exec_drw_keeps_drwCovers (hx : x ≠ vF) (hy : y ≠ vF) (h : exec (.drw x y n) s = .next t) :
    DrwCovers t x y n = DrwCovers s x y n := by
  have hkept := exec_drw_sameExcept h
  have hvx : (t.reg x).toNat = (s.reg x).toNat := hkept (.reg x) (by simpa using hx)
  have hvy : (t.reg y).toNat = (s.reg y).toNat := hkept (.reg y) (by simpa using hy)
  have hi : t.i.toNat = s.i.toNat := hkept .index (by simp)
  have hbyte (a : Nat) : t.readByte a = s.readByte a := BitVec.eq_of_toNat_eq (hkept (.byte a) (by simp))
  funext cy cx
  simp only [DrwCovers, SpriteCovers, hvx, hvy, hi, hbyte]

end Sys2Proof.Machine

namespace Sys2Proof

open Sys2Proof.Machine

/-- Settles O51: VF is the flag of the draw, and a toggled cell that was on is off. -/
theorem collisionFlagOfDraw : Obligations.CollisionFlagOfDraw := by
  intro s t x y n h
  obtain ⟨hit, hflag, hd⟩ := exec_drw_draws h
  rw [hflag]
  refine ⟨hd.flagByte_toNat_eq_one_iff, flagByte_toNat_cases hit, fun cy cx hc hon => ?_⟩
  rw [hd.toggled cy cx hc, hon, Bool.not_true]

/-- Settles O50: the cells are those of the draw, and VF is as O51 says. -/
theorem drawTogglesCoveredCells : Obligations.DrawTogglesCoveredCells := by
  intro s x y n hn
  obtain ⟨t, h⟩ := exec_drw_completes (x := x) (y := y) hn
  obtain ⟨hit, -, hd⟩ := exec_drw_draws h
  obtain ⟨hvF, hflag, -⟩ := collisionFlagOfDraw s t x y n h
  refine ⟨t, h, exec_postlude_pc h rfl, hd.toggled, hd.kept, hvF.2, fun hoff => ?_, exec_drw_sameExcept h⟩
  refine hflag.resolve_left fun hone => ?_
  obtain ⟨cy, cx, hc, hon⟩ := hvF.1 hone
  exact Bool.false_ne_true ((hoff cy cx hc).symm.trans hon)

/-- Settles O52: both draws cover the same cells, and a covered cell is on after the first exactly when it was off. -/
theorem drawTwiceRestores : Obligations.DrawTwiceRestores := by
  intro s x y n hx hy hn
  obtain ⟨t, ht⟩ := exec_drw_completes (x := x) (y := y) hn
  have hi : t.i.toNat = s.i.toNat := exec_drw_sameExcept ht .index (by simp)
  obtain ⟨u, hu⟩ := exec_drw_completes (s := t) (x := x) (y := y) (hi ▸ hn)
  obtain ⟨_, -, hd⟩ := exec_drw_draws ht
  obtain ⟨_, hflag, hd'⟩ := exec_drw_draws hu
  rw [exec_drw_keeps_drwCovers hx hy ht] at hd'
  refine ⟨t, u, ht, hu, hd.cell_twice hd' rfl, ?_⟩
  rw [hflag, hd'.flagByte_toNat_eq_one_iff]
  refine exists₂_congr fun cy cx => and_congr_right fun hc => ?_
  rw [hd.toggled cy cx hc, Bool.not_eq_true']

/-- Settles O49: one write of the framebuffer, so the frame has no flag. -/
theorem clearTurnsCellsOff : Obligations.ClearTurnsCellsOff :=
  ⟨⟨rfl, decodeWord_encode rfl⟩, by decide, fun s =>
    ⟨_, rfl, rfl, cell_clear, (setFb_sameExcept s Framebuffer.clear).advance 2⟩⟩

end Sys2Proof
end

section
/-! Keys and timers: Fx0A in its two cases, the sound output as a number, and what a write of DT and of ST leaves
unchanged (44_keys_timers.md R170 to R175, 60_exceptions.md R209). -/

namespace Sys2Proof.Machine

variable {s : State} {x : Reg}

/-! ### Frames -/

/-- A write of DT changes DT alone. -/
theorem setDt_sameExcept (s : State) (b : Byte) : SameExcept (· = .dt) s (s.setDt b) := by
  intro p hp
  cases p with
  | dt => exact absurd rfl hp
  | _ => rfl

/-- A write of ST changes ST alone. -/
theorem setSt_sameExcept (s : State) (b : Byte) : SameExcept (· = .st) s (s.setSt b) := by
  intro p hp
  cases p with
  | st => exact absurd rfl hp
  | _ => rfl

/-! ### The wait for a key (R173) -/

/-- Fx0A with a key held: the lowest one goes to V[x]. -/
theorem exec_ldVxK_of_held {k : Fin 16} (hk : s.firstHeldKey = some k) :
    exec (.ldVxK x) s = .next ((s.setReg x (BitVec.ofNat 8 k.val)).advance 2) := by
  rw [exec, execLdVxK, hk]
  rfl

/-- Fx0A with no key held leaves the state. -/
theorem exec_ldVxK_of_none_held (hk : s.firstHeldKey = none) : exec (.ldVxK x) s = .next s := by
  rw [exec, execLdVxK, hk]

/-- A key's index fits a register. -/
theorem key_index_toNat (k : Fin 16) : (BitVec.ofNat 8 k.val).toNat = k.val := by
  rw [BitVec.toNat_ofNat, Nat.mod_eq_of_lt (k.isLt.trans (by decide))]

/-! ### The sound output (R209) -/

/-- Sound is active exactly when ST, as a number, is not 0. -/
theorem soundActive_iff (s : State) : s.soundActive = true ↔ s.st.toNat ≠ 0 :=
  bne_iff_ne.trans (not_congr BitVec.toNat_inj.symm)

end Sys2Proof.Machine

namespace Sys2Proof

open Sys2Proof.Machine

/-- Settles O53: V[x] selects one key, so the skips' conditions are that key's level. -/
theorem keySkipsTestLevel : Obligations.KeySkipsTestLevel := by
  intro s x
  refine ⟨fun k hk => ⟨?_, ?_⟩, fun h => ⟨execSkp_fault x h, execSknp_fault x h⟩⟩
  · have hskip := exec_skip_spec (i := .skp x) (execSkp_ok x k hk) rfl
    simpa only [SkipHolds, exists_selected_key_iff hk (s.keys[·.val] = true), Bool.not_eq_true] using hskip
  · have hskip := exec_skip_spec (i := .sknp x) (execSknp_ok x k hk) rfl
    simpa only [SkipHolds, exists_selected_key_iff hk (s.keys[·.val] = false), Bool.not_eq_false] using hskip

/-- Settles O54: the two cases of Fx0A are those of the search for the first held key. -/
theorem keyWaitTakesLowestKey : Obligations.KeyWaitTakesLowestKey := by
  intro s x
  refine ⟨encodedAs_xss rfl rfl rfl, fun k hheld hbelow => ?_,
    fun hnone => exec_ldVxK_of_none_held (firstHeldKey_none.2 hnone)⟩
  refine ⟨_, exec_ldVxK_of_held (firstHeldKey_some.2 ⟨hheld, hbelow⟩), ?_, rfl, setReg_advance_sameExcept s x _ 2⟩
  rw [advance_reg, setReg_reg_self, key_index_toNat]

/-- Settles O55: each is one write of V[x], DT or ST, and the sound output is read off ST. -/
theorem timerRegisterMoves : Obligations.TimerRegisterMoves := by
  intro s x
  exact ⟨encodedAs_xss rfl rfl rfl, encodedAs_xss rfl rfl rfl, encodedAs_xss rfl rfl rfl,
    ⟨_, rfl, setReg_reg_self s x s.dt, rfl, setReg_advance_sameExcept s x _ 2⟩,
    ⟨_, rfl, rfl, rfl, (setDt_sameExcept s _).advance 2⟩,
    ⟨_, rfl, rfl, rfl, soundActive_iff _, (setSt_sameExcept s _).advance 2⟩⟩

end Sys2Proof
end

section
/-! Faults: which one an instruction can raise, the step that raises it, and that neither the state nor the keys
decide what follows (60_exceptions.md R190, R192, R193, R195). -/

namespace Sys2Proof.Machine

variable {i : Instr} {s : State} {f : Fault}

/-! ### The cause of a fault -/

/-- The fault with which an instruction fails is of the cause R195 lists for it. -/
theorem Fails.mayRaise (h : Fails i s f) : mayRaise i f = true := by
  cases i with
  | ret | call _ | skp _ | sknp _ | ldBVx _ | ldMemVx _ | ldVxMem _ => obtain ⟨-, rfl⟩ := h; rfl
  | drw _ _ _ => obtain ⟨-, -, rfl⟩ := h; rfl
  | _ => exact h.elim

/-- A step that faults failed in the fetch, or in the instruction fetched. -/
theorem step_fault_cases (h : step s = .fault f) :
    (¬ s.pc.toNat + 1 ≤ 0xFFF ∧ f = .fetchRange s.pc.toNat) ∨
      ∃ w i, fetchWord s = .ok w ∧ decodeWord w = .ok i ∧ exec i s = .fault f := by
  by_cases hp : s.pc.toNat + 1 ≤ 0xFFF
  · have hw := fetchWord_ok hp
    cases hd : decodeWord (joinBytes (s.readByte s.pc.toNat) (s.readByte (s.pc.toNat + 1))) with
    | error e => cases (step_unknown hw hd).symm.trans h
    | ok i => exact .inr ⟨_, i, hw, hd, (step_eq_exec hw hd).symm.trans h⟩
  · cases (step_fetchRange hp).symm.trans h
    exact .inl ⟨hp, rfl⟩

/-! ### After a fault (R192, R193) -/

/-- A step that faults is reported as that fault. -/
theorem stepReport_of_step_fault (h : step s = .fault f) : stepReport s = .fault f := by
  rcases step_fault_cases h with ⟨hp, rfl⟩ | ⟨w, i, hw, hd, hi⟩
  · exact stepReport_fetchRange hp
  · exact stepReport_fault hw hd hi

/-- The step transaction of a step that faults changes no state and reports the fault. -/
theorem transact_step_of_fault (h : step s = .fault f) : transact .step s = (s, .stepped (.fault f)) := by
  rw [transact, State.afterStep, h, stepReport_of_step_fault h]

/-- A transaction that leaves the state leaves it however often it is repeated. -/
theorem transactAll_replicate_of_fixed {tr : Transaction} (h : (transact tr s).1 = s) (n : Nat) :
    transactAll (List.replicate n tr) s = s := by
  induction n with
  | zero => rfl
  | succ n ih => rw [List.replicate_succ, transactAll, h, ih]

/-! ### The keys (R193) -/

/-- Whether an instruction fails does not depend on the keys: R170 and R171 test V[x], not the key. -/
theorem Fails.setKeys (h : Fails i s f) (k : Vector Bool 16) : Fails i (s.setKeys k) f := by
  cases i <;> exact h

/-- The fetch does not depend on the keys. -/
theorem fetchWord_setKeys (k : Vector Bool 16) : fetchWord (s.setKeys k) = fetchWord s := rfl

end Sys2Proof.Machine

namespace Sys2Proof

open Sys2Proof.Machine

/-- Settles O12: an instruction faults only as `Fails` says. -/
theorem instructionRaisesOnlyItsFault : Obligations.InstructionRaisesOnlyItsFault :=
  fun _ _ _ h => (exec_fault_iff.1 h).mayRaise

/-- Settles O14: the state is a fixed point of the faulting step transaction. -/
theorem faultingStepChangesNothing : Obligations.FaultingStepChangesNothing := by
  intro s f n h
  have hstep := transact_step_of_fault h
  have hsame := transactAll_replicate_of_fixed (tr := .step) (s := s) (by rw [hstep]) n
  exact ⟨hsame, by rw [hsame, hstep]⟩

/-- Settles O15: the same word is fetched, and the instruction fails for the same reason. -/
theorem faultsDoNotDependOnKeys : Obligations.FaultsDoNotDependOnKeys := by
  intro s k f h
  rcases step_fault_cases h with ⟨hp, rfl⟩ | ⟨w, i, hw, hd, hi⟩
  · exact step_fetchRange (s := s.setKeys k) hp
  · rw [step_eq_exec ((fetchWord_setKeys k).trans hw) hd]
    exact exec_fault_iff.2 ((exec_fault_iff.1 hi).setKeys k)

end Sys2Proof
end

section
/-! The tick, the keys in, and the two outputs (60_exceptions.md R205, R206, R208, R209). -/

namespace Sys2Proof.Machine

variable (s : State)

@[simp] theorem tick_dt : s.tick.dt = countDown s.dt := rfl
@[simp] theorem tick_st : s.tick.st = countDown s.st := rfl

/-- The tick changes the two timers alone. -/
theorem tick_sameExcept : SameExcept (fun p => p = .dt ∨ p = .st) s s.tick :=
  (setDt_sameExcept s _).trans (setSt_sameExcept _ _)

/-- After k ticks each timer holds its value less k, floored at 0. -/
theorem transactAll_replicate_tick (k : Nat) :
    (transactAll (List.replicate k .tick) s).dt.toNat = s.dt.toNat - k ∧
    (transactAll (List.replicate k .tick) s).st.toNat = s.st.toNat - k := by
  induction k generalizing s with
  | zero => exact ⟨rfl, rfl⟩
  | succ k ih =>
    obtain ⟨hdt, hst⟩ := ih s.tick
    rw [tick_dt, countDown_toNat, Nat.sub_sub, Nat.add_comm 1 k] at hdt
    rw [tick_st, countDown_toNat, Nat.sub_sub, Nat.add_comm 1 k] at hst
    exact ⟨hdt, hst⟩

/-- set_keys changes the key flags alone. -/
theorem setKeys_sameExcept (k : Vector Bool 16) : SameExcept (fun p => ∃ j, p = .key j) s (s.setKeys k) := by
  intro p hp
  cases p with
  | key j => exact absurd ⟨j, rfl⟩ hp
  | _ => rfl

end Sys2Proof.Machine

namespace Sys2Proof

open Sys2Proof.Machine

/-- Settles O57: by induction on the ticks; the writers of DT and ST are those of O23. -/
theorem timersReachZero : Obligations.TimersReachZero := by
  refine ⟨transactAll_replicate_tick, fun i s t h => ?_⟩
  obtain ⟨-, hdt, hst, -⟩ := registersHaveTheirWriters i s t h
  exact ⟨hdt, hst⟩

/-- Settles O56: a number less 1, floored at 0, is the count down of R205. -/
theorem tickCountsDown : Obligations.TickCountsDown := by
  intro s
  have hfloor : ∀ n : Nat, n - 1 = if n > 0 then n - 1 else 0 := fun n => by split <;> omega
  exact ⟨(countDown_toNat s.dt).trans (hfloor _), (countDown_toNat s.st).trans (hfloor _), tick_sameExcept s, rfl⟩

/-- Settles O59: of the three only set_keys is a write, and it writes the key flags. -/
theorem keysInOutputsOut : Obligations.KeysInOutputsOut :=
  fun s k => ⟨⟨rfl, setKeys_sameExcept s k⟩, rfl, s.soundActive, rfl, soundActive_iff s⟩

end Sys2Proof
end
